-- ==== Sys2Proof/Word.lean ====
section
/-!
DEFINITION. The bit-vector types of the core: the 16-bit word of a register, a memory cell and an encoded
instruction (rule R7, XLEN = 16; rule R70), and the 4-bit field of an instruction (rule R71).
-/

namespace Sys2Proof

/-- What a register or a memory cell holds, and an encoded instruction: 16 bits (rules R7, R51, R70). -/
abbrev Word := BitVec 16

/-- One of the four fields of an instruction word: 4 bits (rule R71). -/
abbrev Nibble := BitVec 4

end Sys2Proof
end

