-- ==== Sys2Proof/Config.lean ====
section
/-!
DEFINITION. What is fixed for the life of one core instance (rule R35): the number of memory cells, whether EXIT exists,
and the five opcode numbers. The spec leaves the first two open (rules R5, R6) and asks a model to keep the numbers as
configuration (decision D1), so all of them are data here and every statement ranges over them.
-/

namespace Sys2Proof

/-- The opcode numbers `OPC_ADD` to `OPC_EXIT` (rule R8). -/
structure OpcodeMap where
  add   : Nibble
  sub   : Nibble
  load  : Nibble
  store : Nibble
  exit  : Nibble
  deriving DecidableEq, Repr

/-- The configuration of an instance (rule R35). `NUM_REGS = 8` and `XLEN = 16` are fixed by the types. -/
structure Config where
  /-- `MEM_SIZE`, rule R5. -/
  memSize : Nat
  /-- `HAS_EXIT`, rule R6. -/
  hasExit : Bool
  /-- The opcode numbers, rule R8. -/
  opcodes : OpcodeMap
  deriving DecidableEq, Repr

/-- The numbers of decision D1 (rule R8, table of rule R77). UNVERIFIED against the repository (log entry 11). -/
def OpcodeMap.d1 : OpcodeMap := ⟨0, 1, 2, 3, 4⟩

/-- The configuration of the spec's test vectors: 32 cells, EXIT present, D1 numbers (rules R5, R6, R8).
DESIGN CHOICE, unsafe: `State.reset` takes it (log entry 2). -/
def Config.vectors : Config := ⟨32, true, OpcodeMap.d1⟩

end Sys2Proof
end

