-- ==== Sys2Proof/Syntax.lean ====
section
/-!
DEFINITION. The instruction set as syntax: one constructor of `Instr` per row of the opcode table (rules R77, R135), the
four decoded fields of a word (rule R72), and the structured instruction the host hands to the encoder (rule R74).
-/

namespace Sys2Proof

/-- A decoded instruction. Every one keeps all three operand fields, the unused ones too (rule R79), so that the word it
was decoded from is not lost. The operand roles are those of rule R76. -/
inductive Instr where
  /-- ADD: `op1` destination and first source register, `op2` second source register (rule R110). -/
  | add (op1 op2 op3 : Nibble)
  /-- SUB: `op1` destination and minuend register, `op2` subtrahend register (rule R111). -/
  | sub (op1 op2 op3 : Nibble)
  /-- LOAD: `op1` destination register, `op2` cell address (rule R120). -/
  | load (op1 op2 op3 : Nibble)
  /-- STORE: `op1` source register, `op2` cell address (rule R121). -/
  | store (op1 op2 op3 : Nibble)
  /-- EXIT, also spelt HALT: no operand is used (rules R130, R131). -/
  | exit (op1 op2 op3 : Nibble)
  deriving DecidableEq, Repr

/-- The four fields `decode` extracts from a word (rule R72). -/
structure Fields where
  opcode : Nibble
  op1    : Nibble
  op2    : Nibble
  op3    : Nibble
  deriving DecidableEq, Repr

/-- The host's structured instruction, before its fields are checked: any integers (rule R74; a line of the program
input format of rule R83(a) is these four numbers). -/
structure InstrTuple where
  opcode   : Int
  operand1 : Int
  operand2 : Int
  operand3 : Int
  deriving DecidableEq, Repr

/-- The one error of `encode` (rule R74). -/
inductive EncodeError where
  | invalidOperand
  deriving DecidableEq, Repr

/-- The spellings of an instruction (rules R83, R131): `HALT` is a second name of EXIT. -/
def Instr.spellings : Instr → List String
  | .add _ _ _   => ["ADD"]
  | .sub _ _ _   => ["SUB"]
  | .load _ _ _  => ["LOAD"]
  | .store _ _ _ => ["STORE"]
  | .exit _ _ _  => ["EXIT", "HALT"]

end Sys2Proof
end

