-- ==== Sys2Proof/WellFormed.lean ====
section
/-!
DEFINITION. The checks on syntax and configuration: a tuple's fields fit in 4 bits (rule R74), an instruction exists in
the configuration (rule R6), a configuration meets rules R5 and R8.
-/

namespace Sys2Proof

/-- `v` is a value of a 4-bit field: an integer in [0, 15] (rules R71, R74). -/
def fitsNibble (v : Int) : Bool := decide (0 ≤ v ∧ v ≤ 15)

/-- All four fields are in [0, 15]: `encode` accepts exactly these tuples (rule R74). A register field of 8 to 15 is
well formed (rules R80, R197), and so is any opcode value (rule R74). -/
def InstrTuple.wellFormed (t : InstrTuple) : Bool :=
  fitsNibble t.opcode && fitsNibble t.operand1 && fitsNibble t.operand2 && fitsNibble t.operand3

/-- The instruction belongs to the instruction set of this configuration: EXIT only when `HAS_EXIT` (rules R6, R135). -/
def Instr.wellFormed (c : Config) : Instr → Bool
  | .add _ _ _   => true
  | .sub _ _ _   => true
  | .load _ _ _  => true
  | .store _ _ _ => true
  | .exit _ _ _  => c.hasExit

/-- The opcode numbers are five distinct values (rule R8). -/
abbrev OpcodeMap.Distinct (m : OpcodeMap) : Prop :=
  [m.add, m.sub, m.load, m.store, m.exit].Nodup

/-- A legal configuration: at least one cell (rule R5, decision D5) and distinct opcode numbers (rule R8). -/
abbrev Config.WellFormed (c : Config) : Prop := 1 ≤ c.memSize ∧ c.opcodes.Distinct

end Sys2Proof
end

