-- ==== Sys2Proof/Decode.lean ====
section
/-!
DEFINITION. The Instruction Codec (rules R70 to R79): the decoder from a 16-bit word to its fields and to an instruction,
total on every word and rejecting an unrecognised opcode by name, and after it the encoder, for fields, for instructions
and for the host's tuples.
-/

namespace Sys2Proof

/-- Why a word is no instruction: its opcode field is not a recognised opcode (rules R77, R78). -/
inductive DecodeRejection where
  | unrecognisedOpcode (opcode : Nibble)
  deriving DecidableEq, Repr

/-- `decode(w)` of rule R72: the fields at bits 15:12, 11:8, 7:4 and 3:0 (rule R71). -/
def decodeFields (w : Word) : Fields where
  opcode := w.extractLsb' 12 4
  op1    := w.extractLsb' 8 4
  op2    := w.extractLsb' 4 4
  op3    := w.extractLsb' 0 4

/-- The dispatch on the opcode field alone (rules R77, R93): EXIT is recognised only when `HAS_EXIT` (rule R6). -/
def instrOfFields (c : Config) (f : Fields) : Except DecodeRejection Instr :=
  if f.opcode = c.opcodes.add then .ok (.add f.op1 f.op2 f.op3)
  else if f.opcode = c.opcodes.sub then .ok (.sub f.op1 f.op2 f.op3)
  else if f.opcode = c.opcodes.load then .ok (.load f.op1 f.op2 f.op3)
  else if f.opcode = c.opcodes.store then .ok (.store f.op1 f.op2 f.op3)
  else if c.hasExit = true ∧ f.opcode = c.opcodes.exit then .ok (.exit f.op1 f.op2 f.op3)
  else .error (.unrecognisedOpcode f.opcode)

/-- The instruction a word is in a configuration, or the rejection of its opcode (rules R72, R77, R78). -/
def decode (c : Config) (w : Word) : Except DecodeRejection Instr :=
  instrOfFields c (decodeFields w)

/-- Rule R71: `(opcode<<12)|(op1<<8)|(op2<<4)|op3`. -/
def encodeFields (f : Fields) : Word :=
  (f.opcode.setWidth 16 <<< 12) ||| (f.op1.setWidth 16 <<< 8) ||| (f.op2.setWidth 16 <<< 4) ||| f.op3.setWidth 16

/-- The opcode number of an instruction (rules R8, R77). -/
def Instr.opcode (m : OpcodeMap) : Instr → Nibble
  | .add _ _ _   => m.add
  | .sub _ _ _   => m.sub
  | .load _ _ _  => m.load
  | .store _ _ _ => m.store
  | .exit _ _ _  => m.exit

/-- The four fields of an instruction (rules R71, R77). -/
def Instr.fields (m : OpcodeMap) (i : Instr) : Fields :=
  match i with
  | .add a b c   => ⟨m.add, a, b, c⟩
  | .sub a b c   => ⟨m.sub, a, b, c⟩
  | .load a b c  => ⟨m.load, a, b, c⟩
  | .store a b c => ⟨m.store, a, b, c⟩
  | .exit a b c  => ⟨m.exit, a, b, c⟩

/-- The word of an instruction under the opcode numbers `m` (rules R71, R77). -/
def encode (m : OpcodeMap) (i : Instr) : Word := encodeFields (i.fields m)

/-- `encode(opcode, op1, op2, op3)` of rule R74, the host's encoder: a field outside [0, 15] is `InvalidOperand`. -/
def encodeTuple (t : InstrTuple) : Except EncodeError Word :=
  if t.wellFormed then
    .ok (encodeFields
      ⟨BitVec.ofInt 4 t.opcode, BitVec.ofInt 4 t.operand1, BitVec.ofInt 4 t.operand2, BitVec.ofInt 4 t.operand3⟩)
  else .error .invalidOperand

/-- The tuple of four decoded fields, unsigned (rule R72); a data word is loaded as this tuple of it (rule R82). -/
def Fields.tuple (f : Fields) : InstrTuple :=
  ⟨f.opcode.toNat, f.op1.toNat, f.op2.toNat, f.op3.toNat⟩

/-- The functional notation of rule R83(b): mnemonic, then the three operands as decimal numbers. -/
def Instr.text (i : Instr) : String :=
  let f := i.fields OpcodeMap.d1
  i.spellings.headD "" ++ "(" ++ Nat.repr f.op1.toNat ++ "," ++ Nat.repr f.op2.toNat ++ ","
    ++ Nat.repr f.op3.toNat ++ ")"

/-- The instruction the decoder reads from a table row's word under the opcode numbers of the table (decision D1) with
EXIT present: bits at and above `nbits` are 0, and a word is one cell (rule R70). -/
def decodeTableWord (nbits w : Nat) : Option Instr :=
  (decode Config.vectors (BitVec.ofNat 16 (w % 2 ^ nbits))).toOption

end Sys2Proof
end

