-- ==== Sys2Proof/Machine/Flags.lean ====
section
/-!
DEFINITION. The arithmetic of ADD and SUB (rule R112). The core has no flags and no condition codes (rule R32): the
result is all an operation gives, and overflow shows only in its wrapping.
-/

namespace Sys2Proof.Machine

/-- `s(b)`: the signed two's complement reading (00_scope.md section 5). -/
def signed (b : Word) : Int := b.toInt

/-- `u(b)`: the unsigned reading (00_scope.md section 5). -/
def unsigned (b : Word) : Nat := b.toNat

/-- `wrap(v)`: the 16-bit pattern of `v` modulo 2^16 (00_scope.md section 5). -/
def wrap (v : Int) : Word := BitVec.ofInt 16 v

/-- The result of ADD: the exact sum of the signed readings, wrapped (rules R110, R112). -/
def wrappedSum (a b : Word) : Word := wrap (signed a + signed b)

/-- The result of SUB: the exact difference of the signed readings, wrapped (rules R111, R112). -/
def wrappedDifference (a b : Word) : Word := wrap (signed a - signed b)

end Sys2Proof.Machine
end

