-- ==== Sys2Proof/Machine/Operands.lean ====
section
/-!
DEFINITION. The two operand forms of rule R76: a register number and an absolute cell address. There is no immediate and
no other addressing mode (rules R76, R122).
-/

namespace Sys2Proof.Machine

/-- The register a field names: 0 to 7 select a register, 8 to 15 select nothing; indices do not wrap (rules R22, R80). -/
def registerIndex (f : Nibble) : Option (Fin 8) :=
  if h : f.toNat < 8 then some ⟨f.toNat, h⟩ else none

/-- `EA = op2`: the field itself, zero-extended (rule R122). -/
def effectiveAddress (f : Nibble) : Nat := f.toNat

end Sys2Proof.Machine
end

