-- ==== Sys2Proof/Machine/State.lean ====
section
/-!
DEFINITION. The state of one core instance as plain data (rule R20), the reasons a step can stop outside the spec's own
states, and the state after reset (rules R38, R190).
-/

namespace Sys2Proof.Machine

/-- The engine's state (rule R27). -/
inductive EngineState where
  /-- Reset done, no step executed yet. -/
  | ready
  /-- At least one step executed, and the engine may step again. -/
  | running
  /-- Stopped for an expected cause. -/
  | halted
  /-- Stopped because of invalid program content. -/
  | faulted
  deriving DecidableEq, Repr

/-- Why the engine is in a terminal state (rule R28). -/
inductive StopReason where
  /-- Not stopped. -/
  | none
  /-- Halted by the EXIT/HALT instruction (rule R163). -/
  | exit
  /-- Halted because `pc` ran past the last cell (rule R164). -/
  | endOfMemory
  /-- Faulted on an unrecognised opcode (rule R161). -/
  | invalidOpcode
  /-- Faulted on a register or cell index outside its range (rule R162). -/
  | outOfBounds
  deriving DecidableEq, Repr

/-- Memory: the cells that do not hold 0, as pairs of cell address and content, addresses rising (`Memory.Wf`).
The unit is the spec's 16-bit cell: there is no byte address and no byte order (rule R54). DESIGN CHOICE, safe (log
entry 3). -/
abbrev Memory := List (Nat × Word)

/-- What a cell that memory does not list holds: the reset content 0 (rules R38, R190). -/
def unlistedCell : Word := 0

/-- The architectural state of one core instance: exactly the tuple of rule R20, and the instance's configuration
(rule R35), which nothing writes. The configuration stands here because a step has no other argument. DESIGN CHOICE,
safe (log entry 1). -/
structure State where
  /-- MEM_SIZE, HAS_EXIT and the opcode numbers of this instance (rule R35). -/
  cfg       : Config
  /-- The general registers `x[0]` to `x[7]` (rule R21). -/
  x         : Vector Word 8
  /-- The program counter, a cell index in [0, MEM_SIZE] (rule R24). -/
  pc        : Nat
  /-- The engine state (rule R27). -/
  state     : EngineState
  /-- The stop reason (rule R28). -/
  reason    : StopReason
  /-- The word that faulted (rule R29). -/
  faultWord : Word
  /-- The pc of the word that faulted (rule R30). -/
  faultPc   : Nat
  /-- Memory, code and data (rule R31). -/
  mem       : Memory
  deriving DecidableEq, Repr

/-- A stop that is no state of the spec's machine. The spec's own faults (rule R165) are next states. -/
inductive Fault where
  /-- Raised by `step` alone, in Ready or Running with `pc` at or past `MEM_SIZE`: the fetch of rule R91 would leave
  memory, and there is no word for `fault_word`. Rule R37(b) says no run reaches such a state. Safe (log entry 6). -/
  | fetchOutOfBounds
  deriving DecidableEq, Repr

/-- An instruction that has no meaning in the model. -/
inductive Refusal where
  /-- Raised only by an arm of `exec` that rejects its instruction by name; safe. No arm does: all are modelled. -/
  | notModelled (mnemonic : String)
  deriving DecidableEq, Repr

/-- The state after reset of an instance of configuration `c` (rules R38, R190): all registers and cells 0, `pc = 0`,
Ready, not stopped. -/
def State.resetOf (c : Config) : State where
  cfg       := c
  x         := Vector.replicate 8 0
  pc        := 0
  state     := .ready
  reason    := .none
  faultWord := 0
  faultPc   := 0
  mem       := []

/-- The state after reset of the instance of the spec's test vectors (rule R38; DESIGN CHOICE of the configuration, log
entry 2). -/
def State.reset : State := State.resetOf Config.vectors

end Sys2Proof.Machine
end

