-- ==== Sys2Proof/Machine/Ops.lean ====
section
/-!
DEFINITION. The named operations over registers, memory, pc and the engine's status: the primitives of 00_scope.md
section 5. Each bounds check answers `none` where the spec raises `OutOfBounds`. Taking a fault is `raise`, a halt is
`halt`; there is no return from either but reset (rule R170).
-/

namespace Sys2Proof.Machine

/-! ## Memory as data -/

/-- The content of cell `a`: the listed value, or the reset content (rules R58, R38). -/
def Memory.read : Memory → Nat → Word
  | [], _ => unlistedCell
  | (b, v) :: m, a => if a = b then v else Memory.read m a

/-- Memory without an entry for cell `a`. -/
def Memory.unlist (m : Memory) (a : Nat) : Memory := m.filter (fun c => c.1 ≠ a)

/-- Put an entry before the first entry of a higher address. -/
def Memory.enter : Memory → Nat → Word → Memory
  | [], a, v => [(a, v)]
  | (b, w) :: m, a, v => if a < b then (a, v) :: (b, w) :: m else (b, w) :: Memory.enter m a v

/-- Memory with cell `a` holding `v` (rule R58). Writing the reset content unlists the cell, so equal memories are equal
data. -/
def Memory.write (m : Memory) (a : Nat) (v : Word) : Memory :=
  if v = unlistedCell then m.unlist a else (m.unlist a).enter a v

/-- Memory with consecutive cells from `a` holding the given words (rule R140). -/
def Memory.writeFrom (m : Memory) (a : Nat) : List Word → Memory
  | [] => m
  | w :: ws => Memory.writeFrom (m.write a w) (a + 1) ws

/-- The canonical form: addresses strictly rising, no entry equal to what an unlisted cell holds. -/
abbrev Memory.Wf (m : Memory) : Prop :=
  m.Pairwise (fun c d => c.1 < d.1) ∧ ∀ c ∈ m, c.2 ≠ unlistedCell

/-! ## Updates of one part of the state -/

/-- Replace the register file. -/
def State.setX (s : State) (v : Vector Word 8) : State := { s with x := v }

/-- Replace the memory. -/
def State.setMem (s : State) (m : Memory) : State := { s with mem := m }

/-- Replace `pc`. -/
def State.setPc (s : State) (p : Nat) : State := { s with pc := p }

/-- Replace the engine state. -/
def State.setState (s : State) (e : EngineState) : State := { s with state := e }

/-- Replace the stop reason. -/
def State.setReason (s : State) (r : StopReason) : State := { s with reason := r }

/-- Replace the fault record (rules R29, R30). -/
def State.setFaultRecord (s : State) (w : Word) (p : Nat) : State := { s with faultWord := w, faultPc := p }

/-! ## Bounds-checked access (rules R22, R53) -/

/-- `x[i]` read: `none` where `i` is no register number. -/
def readRegister (s : State) (f : Nibble) : Option Word :=
  (registerIndex f).map (fun r => s.x[r])

/-- `x[i] <- v`: `none` where `i` is no register number. No register is hard-wired (rule R21). -/
def writeRegister (s : State) (f : Nibble) (v : Word) : Option State :=
  (registerIndex f).map (fun r => s.setX (s.x.set r.1 v r.2))

/-- `MemRead(a, 1)`: `none` where `a >= MEM_SIZE`. -/
def readCell (s : State) (a : Nat) : Option Word :=
  if a < s.cfg.memSize then some (s.mem.read a) else none

/-- `MemWrite(a, 1, v)`: `none` where `a >= MEM_SIZE`. -/
def writeCell (s : State) (a : Nat) (v : Word) : Option State :=
  if a < s.cfg.memSize then some (s.setMem (s.mem.write a v)) else none

/-! ## The engine's status -/

/-- A step has an effect only in Ready or Running (rule R90). -/
abbrev State.CanStep (s : State) : Prop := s.state = .ready ∨ s.state = .running

/-- The two faults (rule R160). -/
inductive FaultCause where
  | invalidOpcode
  | outOfBounds
  deriving DecidableEq, Repr

/-- The two halts (rule R160). -/
inductive HaltCause where
  | exit
  | endOfMemory
  deriving DecidableEq, Repr

/-- The reason a fault records (rule R160). -/
def reasonOfFault : FaultCause → StopReason
  | .invalidOpcode => .invalidOpcode
  | .outOfBounds   => .outOfBounds

/-- The reason a halt records (rule R160). -/
def reasonOfHalt : HaltCause → StopReason
  | .exit        => .exit
  | .endOfMemory => .endOfMemory

/-- `raise F` (rule R165) with `ir` the word fetched in this step: taking a fault. `pc` is kept, no register and no cell
is written. -/
def raise (f : FaultCause) (ir : Word) (s : State) : State :=
  ((s.setState .faulted).setReason (reasonOfFault f)).setFaultRecord ir s.pc

/-- `halt H` (rule R166): the fault record is not written. -/
def halt (h : HaltCause) (s : State) : State :=
  (s.setState .halted).setReason (reasonOfHalt h)

/-- The end of a step that executed a non-terminal instruction: `pc` advances by one cell, and the engine halts at the
end of memory or runs on (rules R95, R96, R97). -/
def advance (s : State) : State :=
  if s.cfg.memSize ≤ s.pc + 1 then halt .endOfMemory (s.setPc (s.pc + 1))
  else (s.setPc (s.pc + 1)).setState .running

/-- How ADD, SUB, LOAD and STORE end (rule R94): the write is done and the step advances, or an index was out of bounds,
nothing was written and the fault is taken (rule R167). -/
def completeOrFault (ir : Word) (s : State) (written : Option State) : State :=
  match written with
  | some t => advance t
  | none   => raise .outOfBounds ir s

/-- Fetch (rules R91, R92): the cell at `pc`, read as the 16-bit word `IR`; `none` past memory. -/
def fetch (s : State) : Option Word := readCell s s.pc

/-! ## Numeric codes (rule R171, decision D12) -/

/-- The 2-bit code of the engine state. -/
def EngineState.code : EngineState → BitVec 2
  | .ready   => 0
  | .running => 1
  | .halted  => 2
  | .faulted => 3

/-- The 3-bit code of the stop reason. -/
def StopReason.code : StopReason → BitVec 3
  | .none          => 0
  | .exit          => 1
  | .endOfMemory   => 2
  | .invalidOpcode => 3
  | .outOfBounds   => 4

end Sys2Proof.Machine
end

