-- ==== Sys2Proof/Machine/Arithmetic.lean ====
section
/-!
DEFINITION. The meanings of ADD and SUB (41_arithmetic.md). `encode` of the instruction is the word `IR` it was fetched
as (rule R75); a fault records it (log entry 5).
-/

namespace Sys2Proof.Machine

/-- ADD (rule R110). -/
def execAdd (op1 op2 op3 : Nibble) (s : State) : Host.Outcome State Fault Refusal :=
  .next <| completeOrFault (encode s.cfg.opcodes (.add op1 op2 op3)) s do
    let a ← readRegister s op1
    let b ← readRegister s op2
    writeRegister s op1 (wrappedSum a b)

/-- SUB (rule R111). -/
def execSub (op1 op2 op3 : Nibble) (s : State) : Host.Outcome State Fault Refusal :=
  .next <| completeOrFault (encode s.cfg.opcodes (.sub op1 op2 op3)) s do
    let a ← readRegister s op1
    let b ← readRegister s op2
    writeRegister s op1 (wrappedDifference a b)

end Sys2Proof.Machine
end

