-- ==== Sys2Proof/Machine/Exit.lean ====
section
/-!
DEFINITION. The meaning of EXIT (43_exit_and_system.md).
-/

namespace Sys2Proof.Machine

/-- EXIT (rule R130): halt with reason Exit, `pc` kept, operands never examined. Where `HAS_EXIT` is false the opcode is
an unrecognised one and the word faults (rules R6, R132); the decoder then never gives this instruction (log entry 7). -/
def execExit (op1 op2 op3 : Nibble) (s : State) : Host.Outcome State Fault Refusal :=
  .next <|
    if s.cfg.hasExit then halt .exit s
    else raise .invalidOpcode (encode s.cfg.opcodes (.exit op1 op2 op3)) s

end Sys2Proof.Machine
end

