-- ==== Sys2Proof/Machine/LoadStore.lean ====
section
/-!
DEFINITION. The meanings of LOAD and STORE (42_load_store.md). The register is `op1` and the address `op2` for both.
-/

namespace Sys2Proof.Machine

/-- LOAD (rule R120): the cell's pattern, unchanged, into the register. -/
def execLoad (op1 op2 op3 : Nibble) (s : State) : Host.Outcome State Fault Refusal :=
  .next <| completeOrFault (encode s.cfg.opcodes (.load op1 op2 op3)) s do
    let v ← readCell s (effectiveAddress op2)
    writeRegister s op1 v

/-- STORE (rule R121): the register's pattern, unchanged, into the cell. -/
def execStore (op1 op2 op3 : Nibble) (s : State) : Host.Outcome State Fault Refusal :=
  .next <| completeOrFault (encode s.cfg.opcodes (.store op1 op2 op3)) s do
    let v ← readRegister s op1
    writeCell s (effectiveAddress op2) v

end Sys2Proof.Machine
end

