-- ==== Sys2Proof/Machine/Dispatch.lean ====
section
/-!
DEFINITION. Dispatch: one arm per instruction (rule R93).
-/

namespace Sys2Proof.Machine

/-- The whole effect of one instruction, the advance of `pc` included, in a state in which a step may execute
(rules R93, R94). -/
def exec (i : Instr) (s : State) : Host.Outcome State Fault Refusal :=
  match i with
  | .add op1 op2 op3 => Sys2Proof.Machine.execAdd op1 op2 op3 s
  | .sub op1 op2 op3 => Sys2Proof.Machine.execSub op1 op2 op3 s
  | .load op1 op2 op3 => Sys2Proof.Machine.execLoad op1 op2 op3 s
  | .store op1 op2 op3 => Sys2Proof.Machine.execStore op1 op2 op3 s
  | .exit op1 op2 op3 => Sys2Proof.Machine.execExit op1 op2 op3 s

end Sys2Proof.Machine
end

