-- ==== Sys2Proof/Machine/Step.lean ====
section
/-!
DEFINITION. One step of the engine (rule R99): the fetch-decode-execute cycle.
-/

namespace Sys2Proof.Machine

/-- Execute a fetched word: its instruction, or the InvalidOpcode fault for an unrecognised opcode, raised before any
operand is examined (rules R93, R132, R168). -/
def executeWord (w : Word) (s : State) : Host.Outcome State Fault Refusal :=
  match decode s.cfg w with
  | .ok i    => exec i s
  | .error _ => .next (raise .invalidOpcode w s)

/-- `step()` (rule R99). In Halted and Faulted a step request changes nothing (rule R98; log entry 4). The fetch never
leaves memory in a state a run reaches (rule R91; log entry 6). -/
def step (s : State) : Host.Outcome State Fault Refusal :=
  if s.CanStep then
    match fetch s with
    | some w => executeWord w s
    | none   => .fault .fetchOutOfBounds
  else .next s

/-- `s` with the instruction word placed in the cell at `pc`, where `step` fetches; nothing else changes (log entry 10). -/
def State.withFetchWord (s : State) (nbits w : Nat) : State :=
  s.setMem (s.mem.write s.pc (BitVec.ofNat 16 (w % 2 ^ nbits)))

end Sys2Proof.Machine
end

