-- ==== Sys2Proof/Machine/HostInterface.lean ====
section
/-!
DEFINITION. What the host may do to the core (44_host_interface.md): reset, load, run, snapshot. Each is one atomic
operation between steps (rule R146); none is an instruction, and none writes a register, `pc` or the status otherwise
than reset does (rule R145).
-/

namespace Sys2Proof.Machine

/-! ## Reset (rule R190) -/

/-- Reset: allowed in any state, every piece of state to its reset value, memory too; the configuration survives
(rules R190, R191). -/
def reinitialize (s : State) : State := State.resetOf s.cfg

/-! ## The Program Loader (rules R140 to R143) -/

/-- Why a load is refused (rules R141, R142, R143). -/
inductive LoadError where
  /-- More instructions than memory has cells (rule R141). -/
  | programTooLarge
  /-- A tuple with a field outside [0, 15] (rule R142). -/
  | invalidOperand
  /-- The engine is not in Ready (rule R143). The name is the model's: DESIGN CHOICE, safe (log entry 8). -/
  | notReady
  deriving DecidableEq, Repr

/-- Encode every instruction of a program, or fail on the first bad tuple (rule R142). -/
def encodeProgram : List InstrTuple → Except EncodeError (List Word)
  | [] => .ok []
  | t :: p =>
    match encodeTuple t, encodeProgram p with
    | .ok w, .ok ws => .ok (w :: ws)
    | _, _          => .error .invalidOperand

/-- `load`: the state afterwards and the error, if it was refused. The state is tested, then the count, then all tuples
are encoded, and only then is memory written from address 0 (rules R140 to R143). -/
def loadProgram (p : List InstrTuple) (s : State) : State × Option LoadError :=
  if s.state ≠ .ready then (s, some .notReady)
  else if s.cfg.memSize < p.length then (s, some .programTooLarge)
  else
    match encodeProgram p with
    | .ok ws   => (s.setMem (s.mem.writeFrom 0 ws), none)
    | .error _ => (s, some .invalidOperand)

/-! ## Running (rules R100, R101) -/

/-- `n` step requests in a row. -/
def steps : Nat → State → Host.Outcome State Fault Refusal
  | 0, s => .next s
  | n + 1, s =>
    match step s with
    | .next t    => steps n t
    | .fault f   => .fault f
    | .refused r => .refused r

/-- `run()`: steps until Halted or Faulted. No run executes more than `MEM_SIZE` steps (rule R101) and a step request in a
terminal state changes nothing (rule R98), so `MEM_SIZE` requests are the whole loop of rule R100. DEDUCED, safe (log
entry 9). -/
def run (s : State) : Host.Outcome State Fault Refusal := steps s.cfg.memSize s

/-- What `run()` returns to the host (rule R100). -/
def runResult (s : State) : Host.Outcome (EngineState × StopReason) Fault Refusal :=
  match run s with
  | .next t    => .next (t.state, t.reason)
  | .fault f   => .fault f
  | .refused r => .refused r

/-! ## The State Inspector (rule R144) -/

/-- What the host can read between steps (rule R144, decision D20). -/
structure Snapshot where
  registers : List Int
  memory    : List Word
  pc        : Nat
  state     : EngineState
  reason    : StopReason
  faultWord : Word
  faultPc   : Nat
  deriving DecidableEq, Repr

/-- `snapshot()`: the eight registers in order as signed integers, the `MEM_SIZE` cells in order, and the status
(rule R144). A function of the state: it changes nothing. -/
def snapshot (s : State) : Snapshot where
  registers := s.x.toList.map signed
  memory    := (List.range s.cfg.memSize).map s.mem.read
  pc        := s.pc
  state     := s.state
  reason    := s.reason
  faultWord := s.faultWord
  faultPc   := s.faultPc

end Sys2Proof.Machine
end

