-- ==== Sys2Proof/Safety.lean ====
section
/-!
DEFINITION. The invariant of every reachable state (rules R25, R28 to R30, R37), and the vocabulary in which statements
say what a step left behind.
-/

namespace Sys2Proof.Machine

/-! ## The invariant -/

/-- Memory is in canonical form and lists only cells that exist (rule R50). -/
abbrev State.MemoryOk (s : State) : Prop := s.mem.Wf ∧ ∀ c ∈ s.mem, c.1 < s.cfg.memSize

/-- Ready: nothing executed, nothing stopped (rules R25, R28 to R30, R37(c)). -/
abbrev State.ReadyOk (s : State) : Prop :=
  s.state = .ready → s.pc = 0 ∧ s.reason = .none ∧ s.faultWord = 0 ∧ s.faultPc = 0

/-- Running: `pc` in [1, MEM_SIZE - 1] (rules R25, R28 to R30, R37(b), R37(d)). -/
abbrev State.RunningOk (s : State) : Prop :=
  s.state = .running →
    1 ≤ s.pc ∧ s.pc < s.cfg.memSize ∧ s.reason = .none ∧ s.faultWord = 0 ∧ s.faultPc = 0

/-- Halted: by EXIT at a cell, or past the last cell (rules R25, R28 to R30, R37(e)). -/
abbrev State.HaltedOk (s : State) : Prop :=
  s.state = .halted →
    ((s.reason = .exit ∧ s.cfg.hasExit = true ∧ s.pc < s.cfg.memSize) ∨
      (s.reason = .endOfMemory ∧ s.pc = s.cfg.memSize)) ∧
    s.faultWord = 0 ∧ s.faultPc = 0

/-- Faulted: the fault record is the word at `pc` and `pc` (rules R25, R28 to R30, R37(f)). -/
abbrev State.FaultedOk (s : State) : Prop :=
  s.state = .faulted →
    (s.reason = .invalidOpcode ∨ s.reason = .outOfBounds) ∧
    s.pc < s.cfg.memSize ∧ s.faultPc = s.pc ∧ s.faultWord = s.mem.read s.pc

/-- The invariant of rule R37 (a) to (f), with the meaning of each status register in each engine state. -/
abbrev State.Inv (s : State) : Prop :=
  s.cfg.WellFormed ∧ s.MemoryOk ∧ s.ReadyOk ∧ s.RunningOk ∧ s.HaltedOk ∧ s.FaultedOk

/-- A terminal state (00_scope.md section 6). -/
abbrev State.Terminal (s : State) : Prop := s.state = .halted ∨ s.state = .faulted

/-! ## What a step left behind -/

/-- `t` is `s` after the advance of a non-terminal instruction, in pc and status (rules R95, R96, R97): the fault record
and the configuration are kept. -/
def Advanced (s t : State) : Prop :=
  t.cfg = s.cfg ∧ t.pc = s.pc + 1 ∧ t.faultWord = s.faultWord ∧ t.faultPc = s.faultPc ∧
  (s.pc + 1 < s.cfg.memSize → t.state = .running ∧ t.reason = s.reason) ∧
  (s.cfg.memSize ≤ s.pc + 1 → t.state = .halted ∧ t.reason = .endOfMemory)

/-- No register and no cell differs, and neither do pc and configuration. -/
def SameData (s t : State) : Prop :=
  t.cfg = s.cfg ∧ t.x = s.x ∧ t.pc = s.pc ∧ ∀ a, t.mem.read a = s.mem.read a

/-- `t` is `s` after taking the fault `r` on the word `w` (rules R165, R167). -/
def FaultTaken (r : StopReason) (w : Word) (s t : State) : Prop :=
  SameData s t ∧ t.state = .faulted ∧ t.reason = r ∧ t.faultWord = w ∧ t.faultPc = s.pc

/-- `op` is a recognised opcode value (00_scope.md section 6; rule R132). -/
abbrev Recognised (c : Config) (op : Nibble) : Prop :=
  op = c.opcodes.add ∨ op = c.opcodes.sub ∨ op = c.opcodes.load ∨ op = c.opcodes.store ∨
  (c.hasExit = true ∧ op = c.opcodes.exit)

/-- An index the instruction uses is out of range: the whole cause of `OutOfBounds` (rule R162). Unused fields are never
checked (rule R79), EXIT uses none. -/
def indexOutOfRange (c : Config) : Instr → Bool
  | .add op1 op2 _   => decide (8 ≤ op1.toNat ∨ 8 ≤ op2.toNat)
  | .sub op1 op2 _   => decide (8 ≤ op1.toNat ∨ 8 ≤ op2.toNat)
  | .load op1 op2 _  => decide (8 ≤ op1.toNat ∨ c.memSize ≤ op2.toNat)
  | .store op1 op2 _ => decide (8 ≤ op1.toNat ∨ c.memSize ≤ op2.toNat)
  | .exit _ _ _      => false

/-- The instruction is EXIT. -/
def isExit : Instr → Bool
  | .add _ _ _   => false
  | .sub _ _ _   => false
  | .load _ _ _  => false
  | .store _ _ _ => false
  | .exit _ _ _  => true

end Sys2Proof.Machine
end

