-- ==== Sys2Proof/Certificates/Slice0/Obligations.lean ====
section
/-!
DEFINITION. The statements for the provers, from the spec's numbered rules. Every statement ranges over all states and all
configurations (memory size, presence of EXIT, opcode numbers) that meet its hypotheses.
-/

open Sys2Proof Sys2Proof.Machine

/-! ## The codec (30_encoding.md) -/

/-- Rule R72: the decoder masks and shifts; each output is an unsigned integer in [0, 15]. -/
def Obligations.DecodeMasksAndShifts : Prop :=
  ∀ w : Word,
    (decodeFields w).opcode.toNat = (w.toNat >>> 12) &&& 0xF ∧
    (decodeFields w).op1.toNat = (w.toNat >>> 8) &&& 0xF ∧
    (decodeFields w).op2.toNat = (w.toNat >>> 4) &&& 0xF ∧
    (decodeFields w).op3.toNat = w.toNat &&& 0xF ∧
    (decodeFields w).opcode.toNat ≤ 15 ∧ (decodeFields w).op1.toNat ≤ 15 ∧
    (decodeFields w).op2.toNat ≤ 15 ∧ (decodeFields w).op3.toNat ≤ 15

/-- Rule R71: the place of each field's bits in the word, and the packing identity. -/
def Obligations.FieldPositionsAndPacking : Prop :=
  ∀ w : Word,
    (∀ k < 4, (decodeFields w).opcode.getLsbD k = w.getLsbD (12 + k)) ∧
    (∀ k < 4, (decodeFields w).op1.getLsbD k = w.getLsbD (8 + k)) ∧
    (∀ k < 4, (decodeFields w).op2.getLsbD k = w.getLsbD (4 + k)) ∧
    (∀ k < 4, (decodeFields w).op3.getLsbD k = w.getLsbD k) ∧
    w.toNat = ((decodeFields w).opcode.toNat <<< 12) ||| ((decodeFields w).op1.toNat <<< 8) |||
      ((decodeFields w).op2.toNat <<< 4) ||| (decodeFields w).op3.toNat

/-- Rule R74: `encode` packs a tuple whose four fields are in [0, 15], whatever its opcode, and answers `InvalidOperand`
and no word for a field above 15 or negative. It is a function of the tuple alone, so no state changes. -/
def Obligations.EncodeTupleChecksEveryField : Prop :=
  ∀ a b c d : Int,
    ((0 ≤ a ∧ a ≤ 15) ∧ (0 ≤ b ∧ b ≤ 15) ∧ (0 ≤ c ∧ c ≤ 15) ∧ (0 ≤ d ∧ d ≤ 15) →
      ∃ w, encodeTuple ⟨a, b, c, d⟩ = .ok w ∧
        w.toNat = (a.toNat <<< 12) ||| (b.toNat <<< 8) ||| (c.toNat <<< 4) ||| d.toNat) ∧
    ((a < 0 ∨ 15 < a) ∨ (b < 0 ∨ 15 < b) ∨ (c < 0 ∨ 15 < c) ∨ (d < 0 ∨ 15 < d) →
      encodeTuple ⟨a, b, c, d⟩ = .error .invalidOperand)

/-- The round-trip laws of 30_encoding.md section 2: an encoded tuple decodes to itself; the fields of any word encode to
the word (the second is the spec's derivation in rule R75). -/
def Obligations.TupleRoundTrip : Prop :=
  (∀ (t : InstrTuple) (w : Word), encodeTuple t = .ok w → (decodeFields w).tuple = t) ∧
  (∀ w : Word, encodeTuple (decodeFields w).tuple = .ok w)

/-- Decode and encode agree on instructions, under any distinct opcode numbers: a word decodes to `i` exactly if `i` is an
instruction of the configuration and the word is its encoding. -/
def Obligations.DecodeIffEncode : Prop :=
  ∀ c : Config, c.opcodes.Distinct → ∀ (w : Word) (i : Instr),
    decode c w = .ok i ↔ (i.wellFormed c = true ∧ encode c.opcodes i = w)

/-- The opcode field alone decides whether a word is an instruction; a rejection names that field (30_encoding.md
section 3, 43_exit_and_system.md). -/
def Obligations.RecognisedOpcodesDecode : Prop :=
  ∀ (c : Config) (w : Word),
    ((∃ i, decode c w = .ok i) ↔ Recognised c (decodeFields w).opcode) ∧
    (¬ Recognised c (decodeFields w).opcode →
      decode c w = .error (.unrecognisedOpcode (decodeFields w).opcode))

/-- Words of 95_test_vectors.md section 2.1 and what they decode to under decision D1. -/
def Obligations.TableWordsDecode : Prop :=
  decode Config.vectors 0x0000 = .ok (.add 0 0 0) ∧
  decode Config.vectors 0x0120 = .ok (.add 1 2 0) ∧
  decode Config.vectors 0x1234 = .ok (.sub 2 3 4) ∧
  decode Config.vectors 0x22A0 = .ok (.load 2 10 0) ∧
  decode Config.vectors 0x33C0 = .ok (.store 3 12 0) ∧
  decode Config.vectors 0x4ABC = .ok (.exit 10 11 12) ∧
  decode Config.vectors 0x8001 = .error (.unrecognisedOpcode 8)

/-- The illegal words under decision D1 (the spec's own choice of opcode numbers, log entry 11), for any memory size:
0x5000 and above with EXIT, 0x4000 and above without (rule R78). -/
def Obligations.IllegalWordsUnderD1 : Prop :=
  ∀ (n : Nat) (w : Word),
    ((∃ e, decode ⟨n, true, OpcodeMap.d1⟩ w = .error e) ↔ 0x5000 ≤ w.toNat) ∧
    ((∃ e, decode ⟨n, false, OpcodeMap.d1⟩ w = .error e) ↔ 0x4000 ≤ w.toNat)

/-! ## The instructions (41, 42, 43): encoding, result, frame, fault -/

/-- Rule R110. The 16-bit wrap and the OutOfBounds fault are the spec's decisions D2, D3 and D10, stated in the rule. -/
def Obligations.AddWritesWrappedSum : Prop :=
  OpcodeMap.d1.add = 0 ∧
  ∀ (op1 op2 op3 : Nibble) (s : State), s.CanStep →
    encode s.cfg.opcodes (.add op1 op2 op3) = s.cfg.opcodes.add ++ op1 ++ op2 ++ op3 ∧
    (∀ (h1 : op1.toNat < 8) (h2 : op2.toNat < 8), ∃ t, exec (.add op1 op2 op3) s = .next t ∧
      t.x[op1.toNat] = wrap (signed s.x[op1.toNat] + signed s.x[op2.toNat]) ∧
      (∀ r (hr : r < 8), r ≠ op1.toNat → t.x[r] = s.x[r]) ∧
      (∀ a, t.mem.read a = s.mem.read a) ∧ Advanced s t) ∧
    (s.pc < s.cfg.memSize → decode s.cfg (s.mem.read s.pc) = .ok (.add op1 op2 op3) →
      8 ≤ op1.toNat ∨ 8 ≤ op2.toNat →
      ∃ t, step s = .next t ∧ FaultTaken .outOfBounds (s.mem.read s.pc) s t)

/-- Rule R111. The 16-bit wrap and the OutOfBounds fault are the spec's decisions D2, D3 and D10, stated in the rule. -/
def Obligations.SubWritesWrappedDifference : Prop :=
  OpcodeMap.d1.sub = 1 ∧
  ∀ (op1 op2 op3 : Nibble) (s : State), s.CanStep →
    encode s.cfg.opcodes (.sub op1 op2 op3) = s.cfg.opcodes.sub ++ op1 ++ op2 ++ op3 ∧
    (∀ (h1 : op1.toNat < 8) (h2 : op2.toNat < 8), ∃ t, exec (.sub op1 op2 op3) s = .next t ∧
      t.x[op1.toNat] = wrap (signed s.x[op1.toNat] - signed s.x[op2.toNat]) ∧
      (∀ r (hr : r < 8), r ≠ op1.toNat → t.x[r] = s.x[r]) ∧
      (∀ a, t.mem.read a = s.mem.read a) ∧ Advanced s t) ∧
    (s.pc < s.cfg.memSize → decode s.cfg (s.mem.read s.pc) = .ok (.sub op1 op2 op3) →
      8 ≤ op1.toNat ∨ 8 ≤ op2.toNat →
      ∃ t, step s = .next t ∧ FaultTaken .outOfBounds (s.mem.read s.pc) s t)

/-- Rule R120. The OutOfBounds fault is the spec's decision D10, stated in the rule. -/
def Obligations.LoadCopiesCellToRegister : Prop :=
  OpcodeMap.d1.load = 2 ∧
  ∀ (op1 op2 op3 : Nibble) (s : State), s.CanStep →
    encode s.cfg.opcodes (.load op1 op2 op3) = s.cfg.opcodes.load ++ op1 ++ op2 ++ op3 ∧
    (∀ (h1 : op1.toNat < 8), op2.toNat < s.cfg.memSize → ∃ t, exec (.load op1 op2 op3) s = .next t ∧
      t.x[op1.toNat] = s.mem.read op2.toNat ∧
      (∀ r (hr : r < 8), r ≠ op1.toNat → t.x[r] = s.x[r]) ∧
      (∀ a, t.mem.read a = s.mem.read a) ∧ Advanced s t) ∧
    (s.pc < s.cfg.memSize → decode s.cfg (s.mem.read s.pc) = .ok (.load op1 op2 op3) →
      8 ≤ op1.toNat ∨ s.cfg.memSize ≤ op2.toNat →
      ∃ t, step s = .next t ∧ FaultTaken .outOfBounds (s.mem.read s.pc) s t)

/-- Rule R121: the cell stored to is `effectiveAddress op2`, and every other cell reads as before. The OutOfBounds fault
is the spec's decision D10, stated in the rule. -/
def Obligations.StoreCopiesRegisterToCell : Prop :=
  OpcodeMap.d1.store = 3 ∧
  ∀ (op1 op2 op3 : Nibble) (s : State), s.CanStep →
    encode s.cfg.opcodes (.store op1 op2 op3) = s.cfg.opcodes.store ++ op1 ++ op2 ++ op3 ∧
    (∀ (h1 : op1.toNat < 8), effectiveAddress op2 < s.cfg.memSize → ∃ t, exec (.store op1 op2 op3) s = .next t ∧
      t.mem.read (effectiveAddress op2) = s.x[op1.toNat] ∧
      (∀ a, a ≠ effectiveAddress op2 → t.mem.read a = s.mem.read a) ∧
      t.x = s.x ∧ Advanced s t) ∧
    (s.pc < s.cfg.memSize → decode s.cfg (s.mem.read s.pc) = .ok (.store op1 op2 op3) →
      8 ≤ op1.toNat ∨ s.cfg.memSize ≤ effectiveAddress op2 →
      ∃ t, step s = .next t ∧ FaultTaken .outOfBounds (s.mem.read s.pc) s t) ∧
    effectiveAddress op2 = op2.toNat

/-- Rule R130: EXIT halts whatever its operands, writes `state` and `reason` alone, and no step follows. The name Exit of
the reason is the spec's decision D12. EXIT exists only when HAS_EXIT: `ExitAbsentFaults` says what its word does then. -/
def Obligations.ExitHalts : Prop :=
  OpcodeMap.d1.exit = 4 ∧
  ∀ (op1 op2 op3 : Nibble) (s : State), s.CanStep →
    encode s.cfg.opcodes (.exit op1 op2 op3) = s.cfg.opcodes.exit ++ op1 ++ op2 ++ op3 ∧
    (s.cfg.hasExit = true → ∃ t, exec (.exit op1 op2 op3) s = .next t ∧
      SameData s t ∧ t.state = .halted ∧ t.reason = .exit ∧
      t.faultWord = s.faultWord ∧ t.faultPc = s.faultPc ∧ step t = .next t)

/-- 43_exit_and_system.md, "With `HAS_EXIT = false` the word 0x4000 faults instead of halting": no word decodes to EXIT then,
and the word of EXIT takes the InvalidOpcode fault. That `exec` of the absent instruction takes the same fault is the
model's reading (log entry 7), and that it records the instruction's encoding is log entry 5. -/
def Obligations.ExitAbsentFaults : Prop :=
  ∀ (op1 op2 op3 : Nibble) (s : State), s.CanStep → s.cfg.hasExit = false →
    (∀ w, decode s.cfg w ≠ .ok (.exit op1 op2 op3)) ∧
    (s.cfg.opcodes.Distinct → s.pc < s.cfg.memSize →
      s.mem.read s.pc = encode s.cfg.opcodes (.exit op1 op2 op3) →
      ∃ t, step s = .next t ∧ FaultTaken .invalidOpcode (s.mem.read s.pc) s t) ∧
    (∃ t, exec (.exit op1 op2 op3) s = .next t ∧
      FaultTaken .invalidOpcode (encode s.cfg.opcodes (.exit op1 op2 op3)) s t)

/-- Rule R132: a step on a word whose opcode is not recognised takes the InvalidOpcode fault, whatever its operand fields
hold; and the unrecognised values under decision D1. -/
def Obligations.UnrecognisedOpcodeFaults : Prop :=
  (∀ s : State, s.CanStep → s.pc < s.cfg.memSize →
    ¬ Recognised s.cfg (decodeFields (s.mem.read s.pc)).opcode →
    ∃ t, step s = .next t ∧ FaultTaken .invalidOpcode (s.mem.read s.pc) s t) ∧
  (∀ (n : Nat) (op : Nibble),
    (¬ Recognised ⟨n, true, OpcodeMap.d1⟩ op ↔ 5 ≤ op.toNat) ∧
    (¬ Recognised ⟨n, false, OpcodeMap.d1⟩ op ↔ 4 ≤ op.toNat))

/-- 30_encoding.md section 3 (the spec's decision D11): a field an instruction does not use changes nothing but the word a
fault records. -/
def Obligations.UnusedFieldsIgnored : Prop :=
  ∀ (op1 op2 op3 op3' : Nibble) (s : State),
    (op1.toNat < 8 → op2.toNat < 8 →
      exec (.add op1 op2 op3) s = exec (.add op1 op2 op3') s ∧
      exec (.sub op1 op2 op3) s = exec (.sub op1 op2 op3') s) ∧
    (op1.toNat < 8 → op2.toNat < s.cfg.memSize →
      exec (.load op1 op2 op3) s = exec (.load op1 op2 op3') s ∧
      exec (.store op1 op2 op3) s = exec (.store op1 op2 op3') s) ∧
    (s.cfg.hasExit = true → ∀ a b c : Nibble, exec (.exit op1 op2 op3) s = exec (.exit a b c) s)

/-- 41_arithmetic.md section "Integer arithmetic laws" (the spec's decisions D2 and D3, log entry 12): addition and
subtraction modulo 2^16 on the unsigned readings, exact on the signed readings while the result fits. -/
def Obligations.WrappedArithmeticIsModular : Prop :=
  ∀ a b : Word,
    unsigned (wrappedSum a b) = (unsigned a + unsigned b) % 2 ^ 16 ∧
    (unsigned (wrappedDifference a b) : Int) = ((unsigned a : Int) - unsigned b) % 2 ^ 16 ∧
    (-32768 ≤ signed a + signed b → signed a + signed b ≤ 32767 → signed (wrappedSum a b) = signed a + signed b) ∧
    (-32768 ≤ signed a - signed b → signed a - signed b ≤ 32767 →
      signed (wrappedDifference a b) = signed a - signed b)

/-- 41_arithmetic.md, the laws the spec derives from ADD and SUB: ADD then SUB of another register restores all registers,
SUB of a register from itself clears it, doubling sixteen times clears every value, and the sum is commutative. -/
def Obligations.ArithmeticLaws : Prop :=
  (∀ (op1 op2 c d : Nibble) (s : State), op1.toNat < 8 → op2.toNat < 8 → op1 ≠ op2 →
    ∃ t u, exec (.add op1 op2 c) s = .next t ∧ exec (.sub op1 op2 d) t = .next u ∧ u.x = s.x) ∧
  (∀ (op1 c : Nibble) (s : State) (h1 : op1.toNat < 8),
    ∃ t, exec (.sub op1 op1 c) s = .next t ∧ t.x[op1.toNat] = 0) ∧
  (∀ v : Word, (fun z => wrappedSum z z)^[16] v = 0) ∧
  (∀ a b : Word, wrappedSum a b = wrappedSum b a)

/-- 42_load_store.md, the round trip the spec derives: a stored value is loaded back unchanged into any register. -/
def Obligations.StoreThenLoadMovesValue : Prop :=
  ∀ (r q a c d : Nibble) (s : State) (hr : r.toNat < 8) (hq : q.toNat < 8), a.toNat < s.cfg.memSize →
    ∃ t u, exec (.store r a c) s = .next t ∧ exec (.load q a d) t = .next u ∧ u.x[q.toNat] = s.x[r.toNat]

/-! ## The step (40_execution_cycle.md, 60_exceptions.md) -/

/-- A step in Ready or Running whose word decodes to an instruction is `exec` of that instruction, which advances `pc`
itself (40_execution_cycle.md section 1). -/
def Obligations.StepRunsDecodedInstruction : Prop :=
  ∀ (s : State) (i : Instr), s.CanStep → s.pc < s.cfg.memSize →
    decode s.cfg (s.mem.read s.pc) = .ok i → step s = exec i s

/-- 40_execution_cycle.md section 1, "a `step()` request changes nothing": in a terminal state, however often it is made.
That the model answers the same state, and no stop, is log entry 4. -/
def Obligations.TerminalStateStays : Prop :=
  ∀ s : State, s.Terminal → ∀ n, steps n s = .next s

/-- Rule R103, the complete transition table, from every state of the invariant: reset and load; the six kinds of step in
Ready and Running, which are all the cases there are; and the two terminal rows. -/
def Obligations.TransitionTable : Prop :=
  ∀ s : State, s.Inv →
    ((reinitialize s).state = .ready ∧ (reinitialize s).reason = .none ∧ (reinitialize s).pc = 0) ∧
    (∀ p, s.state = .ready → (loadProgram p s).1 = s.setMem (loadProgram p s).1.mem) ∧
    (s.CanStep → ∀ i, decode s.cfg (s.mem.read s.pc) = .ok i → isExit i = false → indexOutOfRange s.cfg i = false →
      ∃ t, step s = .next t ∧ t.pc = s.pc + 1 ∧
        (s.pc + 1 < s.cfg.memSize → t.state = .running ∧ t.reason = .none) ∧
        (s.pc + 1 = s.cfg.memSize → t.state = .halted ∧ t.reason = .endOfMemory)) ∧
    (s.CanStep → ∀ i, decode s.cfg (s.mem.read s.pc) = .ok i → isExit i = true →
      ∃ t, step s = .next t ∧ t.state = .halted ∧ t.reason = .exit ∧ t.pc = s.pc) ∧
    (s.CanStep → ∀ e, decode s.cfg (s.mem.read s.pc) = .error e →
      ∃ t, step s = .next t ∧ t.state = .faulted ∧ t.reason = .invalidOpcode ∧ t.pc = s.pc) ∧
    (s.CanStep → ∀ i, decode s.cfg (s.mem.read s.pc) = .ok i → indexOutOfRange s.cfg i = true →
      ∃ t, step s = .next t ∧ t.state = .faulted ∧ t.reason = .outOfBounds ∧ t.pc = s.pc) ∧
    (s.Terminal → step s = .next s)

/-- 10_state.md section 3: a step advances `pc` by one or keeps it, and keeps it exactly when it stops the engine
otherwise than at the end of memory; no step lowers it. -/
def Obligations.PcAdvancesByOneOrStays : Prop :=
  ∀ s t : State, step s = .next t →
    (s.CanStep →
      (t.pc = s.pc + 1 ∧ (t.state = .running ∨ (t.state = .halted ∧ t.reason = .endOfMemory))) ∨
      (t.pc = s.pc ∧ t.Terminal ∧ t.reason ≠ .endOfMemory)) ∧
    (¬ s.CanStep → t.pc = s.pc)

/-- 10_state.md section 7, 60_exceptions.md section 1: a step halts with EndOfMemory exactly when it takes `pc` to
MEM_SIZE, and `pc` never passes it (that the bound is MEM_SIZE is the spec's decision D7, log entry 14). -/
def Obligations.EndOfMemoryExactlyPastLastCell : Prop :=
  ∀ s t : State, s.CanStep → step s = .next t →
    ((t.state = .halted ∧ t.reason = .endOfMemory) ↔ t.pc = s.cfg.memSize) ∧ t.pc ≤ s.cfg.memSize

/-- 60_exceptions.md section 2, which the spec derives: a step that ends Faulted changed nothing but the status, and the
fault record is the word at `pc` and `pc`. -/
def Obligations.FaultsArePrecise : Prop :=
  ∀ s t : State, s.CanStep → step s = .next t → t.state = .faulted →
    (t.reason = .invalidOpcode ∨ t.reason = .outOfBounds) ∧ FaultTaken t.reason (s.mem.read s.pc) s t

/-- 60_exceptions.md sections 1 and 2: a step that ends Halted keeps the fault record; by EXIT it changes no data
either. -/
def Obligations.HaltsKeepFaultRecord : Prop :=
  ∀ s t : State, s.CanStep → step s = .next t → t.state = .halted →
    t.faultWord = s.faultWord ∧ t.faultPc = s.faultPc ∧
    ((t.reason = .exit ∧ SameData s t) ∨ (t.reason = .endOfMemory ∧ t.pc = s.pc + 1))

/-- 60_exceptions.md sections 1 and 3: which words fault, and with which cause. An unrecognised opcode always reports
InvalidOpcode; a recognised one reports OutOfBounds exactly if an index it uses is out of range. -/
def Obligations.FaultCausesAndPriority : Prop :=
  ∀ s t : State, s.CanStep → step s = .next t →
    ((t.state = .faulted ∧ t.reason = .invalidOpcode) ↔
      ¬ Recognised s.cfg (decodeFields (s.mem.read s.pc)).opcode) ∧
    ((t.state = .faulted ∧ t.reason = .outOfBounds) ↔
      ∃ i, decode s.cfg (s.mem.read s.pc) = .ok i ∧ indexOutOfRange s.cfg i = true)

/-- Rules R91 and R37(b): a step stops outside the spec's states only if `pc` is outside memory in Ready or Running, never
refuses, and under the invariant always answers a next state. -/
def Obligations.StepAlwaysAnswers : Prop :=
  (∀ s : State, (∃ t, step s = .next t) ∨
    (step s = .fault .fetchOutOfBounds ∧ s.CanStep ∧ s.cfg.memSize ≤ s.pc)) ∧
  (∀ s : State, s.Inv → ∃ t, step s = .next t)

/-! ## Who writes what (10_state.md, 20_memory.md) -/

/-- 10_state.md sections 2 and 5: the only step that changes a cell is a STORE, the cell is its `op2`, and what it then
holds is the register `op1`. -/
def Obligations.OnlyStoreWritesMemory : Prop :=
  ∀ (s t : State) (a : Nat), step s = .next t → t.mem.read a ≠ s.mem.read a →
    ∃ (op1 op2 op3 : Nibble) (h1 : op1.toNat < 8),
      decode s.cfg (s.mem.read s.pc) = .ok (.store op1 op2 op3) ∧ a = effectiveAddress op2 ∧
      t.mem.read a = s.x[op1.toNat] ∧ t.x = s.x

/-- 10_state.md section 2: the only steps that change a register are ADD, SUB and LOAD, and the register is their `op1`. -/
def Obligations.OnlyDestinationRegisterChanges : Prop :=
  ∀ (s t : State) (r : Nat) (hr : r < 8), step s = .next t → t.x[r] ≠ s.x[r] →
    ∃ op1 op2 op3 : Nibble, op1.toNat = r ∧
      (decode s.cfg (s.mem.read s.pc) = .ok (.add op1 op2 op3) ∨
        decode s.cfg (s.mem.read s.pc) = .ok (.sub op1 op2 op3) ∨
        decode s.cfg (s.mem.read s.pc) = .ok (.load op1 op2 op3))

/-- 20_memory.md section 1, which the spec derives: no number of steps changes a cell above 15. -/
def Obligations.HighCellsNeverWritten : Prop :=
  ∀ (n : Nat) (s t : State), steps n s = .next t → ∀ a, 16 ≤ a → t.mem.read a = s.mem.read a

/-- 10_state.md section 6, 70_reset_and_hazards.md section 1: no number of steps, no load and no reset changes the
configuration. -/
def Obligations.ConfigurationIsFixed : Prop :=
  (∀ (n : Nat) (s t : State), steps n s = .next t → t.cfg = s.cfg) ∧
  (∀ (p : List InstrTuple) (s : State), (loadProgram p s).1.cfg = s.cfg) ∧
  (∀ s : State, (reinitialize s).cfg = s.cfg)

/-- The model's representation of memory (log entry 3): in canonical form, memories whose cells all agree are the same
data. -/
def Obligations.CanonicalMemoryIsUnique : Prop :=
  ∀ m m' : Memory, m.Wf → m'.Wf → (∀ a, m.read a = m'.read a) → m = m'

/-- 20_memory.md section 3, which the spec derives: a STORE into the next cell changes the very next instruction. -/
def Obligations.StoreSeenByNextFetch : Prop :=
  ∀ (s : State) (op1 op2 op3 : Nibble) (h1 : op1.toNat < 8), s.CanStep → s.pc + 1 < s.cfg.memSize →
    decode s.cfg (s.mem.read s.pc) = .ok (.store op1 op2 op3) → op2.toNat = s.pc + 1 →
    ∃ t, step s = .next t ∧ fetch t = some s.x[op1.toNat] ∧ step t = executeWord s.x[op1.toNat] t

/-! ## Invariants and runs (10_state.md section 7, 40_execution_cycle.md section 3) -/

/-- 10_state.md section 7 (a) to (f), which the spec derives, and the meaning of each status register: every step keeps
the invariant. -/
def Obligations.StepKeepsInvariant : Prop :=
  ∀ s t : State, s.Inv → step s = .next t → t.Inv

/-- The invariant holds after reset, in every legal configuration (reset values by the spec's decision D4, log entry 13). -/
def Obligations.ResetMeetsInvariant : Prop :=
  (∀ c : Config, c.WellFormed → (State.resetOf c).Inv) ∧ State.reset.Inv

/-- A load keeps the invariant, accepted or refused (44_host_interface.md section 2). -/
def Obligations.LoadKeepsInvariant : Prop :=
  ∀ (p : List InstrTuple) (s : State), s.Inv → (loadProgram p s).1.Inv

/-- 10_state.md section 7 (g) and 40_execution_cycle.md section 3, which the spec derives: from a launch state, how many
steps were executed can be read off `pc` and `reason`. Before a stop it is `pc`, at the end of memory MEM_SIZE, and after
EXIT or a fault `pc + 1`; that count of requests already reaches the state, and before it the engine could step. -/
def Obligations.StepCountFromPcAndReason : Prop :=
  ∀ (s t : State) (n : Nat), s.Inv → s.state = .ready → steps n s = .next t →
    (t.reason = .none → t.pc = n) ∧
    (t.reason = .endOfMemory → t.pc = s.cfg.memSize ∧ t.pc ≤ n ∧ steps t.pc s = .next t ∧
      ∀ k < t.pc, ∃ u, steps k s = .next u ∧ u.CanStep) ∧
    (t.reason ≠ .none → t.reason ≠ .endOfMemory → t.pc + 1 ≤ n ∧ steps (t.pc + 1) s = .next t ∧
      ∀ k < t.pc + 1, ∃ u, steps k s = .next u ∧ u.CanStep)

/-- 40_execution_cycle.md section 3, which the spec derives: every run ends in a terminal state, within MEM_SIZE steps,
and `run()` returns that state's `state` and `reason`. The bound stands in the definition of `run`, which makes MEM_SIZE step
requests (log entry 9); the statement says that they are enough. -/
def Obligations.EveryRunTerminates : Prop :=
  ∀ s : State, s.Inv →
    ∃ t, run s = .next t ∧ t.Terminal ∧ t.Inv ∧ runResult s = .next (t.state, t.reason)

/-- Rule R100, `while state = Ready or state = Running: step()`: the run is the end state itself in a terminal state, and
otherwise one step and the run from there; it returns `state` and `reason`, and the fault record stays in the snapshot.
A run is therefore the same for any larger number of requests, which is why the model's bound of MEM_SIZE requests (log
entry 9) is the loop. -/
def Obligations.RunIsTheLoop : Prop :=
  ∀ s : State, s.Inv →
    (s.Terminal → run s = .next s) ∧
    (s.CanStep → ∃ t, step s = .next t ∧ run s = run t) ∧
    (∀ k, s.cfg.memSize ≤ k → steps k s = run s) ∧
    (∀ t, run s = .next t → t.Terminal ∧ runResult s = .next (t.state, t.reason) ∧
      (snapshot t).faultWord = t.faultWord ∧ (snapshot t).faultPc = t.faultPc)

/-- 70_reset_and_hazards.md section 3, a consequence of decision D1 (log entry 11): sixteen zero cells in a row leave 0 in
R0, and nothing else of registers and memory changes. -/
def Obligations.ZeroCellsClearR0 : Prop :=
  ∀ s : State, s.cfg.opcodes = OpcodeMap.d1 → s.CanStep → s.pc + 16 ≤ s.cfg.memSize →
    (∀ k < 16, s.mem.read (s.pc + k) = 0) →
    ∃ t, steps 16 s = .next t ∧ t.x[0] = 0 ∧ (∀ r (hr : r < 8), r ≠ 0 → t.x[r] = s.x[r]) ∧
      (∀ a, t.mem.read a = s.mem.read a) ∧ t.pc = s.pc + 16

/-! ## The host interface (44_host_interface.md, 70_reset_and_hazards.md) -/

/-- 70_reset_and_hazards.md section 1: reset, in any state, gives every piece of state its reset value. `pc = 0` and Ready
are the source's, the rest the spec's decision D4 (log entry 13). -/
def Obligations.ResetClearsEverything : Prop :=
  ∀ s : State,
    (reinitialize s).pc = 0 ∧ (reinitialize s).state = .ready ∧ (reinitialize s).reason = .none ∧
    (reinitialize s).faultWord = 0 ∧ (reinitialize s).faultPc = 0 ∧
    (∀ r (hr : r < 8), (reinitialize s).x[r] = 0) ∧ (∀ a, (reinitialize s).mem.read a = 0)

/-- 44_host_interface.md section 2: an accepted load puts the word of instruction `k` in cell `k` and touches nothing else. -/
def Obligations.LoadWritesProgram : Prop :=
  ∀ (p : List InstrTuple) (s : State), s.state = .ready → p.length ≤ s.cfg.memSize →
    (∀ t ∈ p, t.wellFormed = true) →
    ∃ u, loadProgram p s = (u, none) ∧
      (∀ k (hk : k < p.length), encodeTuple p[k] = .ok (u.mem.read k)) ∧
      (∀ a, p.length ≤ a → u.mem.read a = s.mem.read a) ∧
      u.cfg = s.cfg ∧ u.x = s.x ∧ u.pc = s.pc ∧ u.state = s.state ∧ u.reason = s.reason ∧
      u.faultWord = s.faultWord ∧ u.faultPc = s.faultPc

/-- 44_host_interface.md section 2: when a load is refused, with which error, and that it then changes nothing. That
nothing is written and the order of the checks are the spec's decision D14; the name notReady and its place before the
other checks are the model's (log entry 8). -/
def Obligations.RefusedLoadChangesNothing : Prop :=
  ∀ (p : List InstrTuple) (s : State),
    (s.state ≠ .ready → loadProgram p s = (s, some .notReady)) ∧
    (s.state = .ready → s.cfg.memSize < p.length → loadProgram p s = (s, some .programTooLarge)) ∧
    (s.state = .ready → p.length ≤ s.cfg.memSize → (∃ t ∈ p, t.wellFormed = false) →
      loadProgram p s = (s, some .invalidOperand))

/-- 30_encoding.md section 3, which the spec derives: any sequence of 16-bit constants that fits can be loaded, each as
the tuple of its fields. -/
def Obligations.DataWordsAreLoadable : Prop :=
  ∀ (ks : List Word) (s : State), s.state = .ready → ks.length ≤ s.cfg.memSize →
    ∃ u, loadProgram (ks.map (fun k => (decodeFields k).tuple)) s = (u, none) ∧
      ∀ k (hk : k < ks.length), u.mem.read k = ks[k]

/-- 44_host_interface.md section 3: what a snapshot shows (reason and fault record by the spec's decision D20). -/
def Obligations.SnapshotShowsState : Prop :=
  ∀ s : State,
    (snapshot s).registers.length = 8 ∧
    (∀ r (hr : r < 8), (snapshot s).registers[r]? = some (signed s.x[r])) ∧
    (snapshot s).memory.length = s.cfg.memSize ∧
    (∀ a, a < s.cfg.memSize → (snapshot s).memory[a]? = some (s.mem.read a)) ∧
    (snapshot s).pc = s.pc ∧ (snapshot s).state = s.state ∧ (snapshot s).reason = s.reason ∧
    (snapshot s).faultWord = s.faultWord ∧ (snapshot s).faultPc = s.faultPc
end

