-- ==== Sys2Proof/Laws/Arithmetic.lean ====
section
/-!
SUPPORT. ADD and SUB on bit patterns: the signed and the unsigned reading give the same pattern (rule R112).
-/

namespace Sys2Proof.Machine

theorem wrappedSum_eq_add (a b : Word) : wrappedSum a b = a + b := by
  simp [wrappedSum, wrap, signed, BitVec.ofInt_add]

theorem wrappedDifference_eq_sub (a b : Word) : wrappedDifference a b = a - b := by
  apply BitVec.eq_of_toInt_eq
  simp [wrappedDifference, wrap, signed, BitVec.toInt_sub]

end Sys2Proof.Machine
end

