-- ==== Sys2Proof/Laws/Codec.lean ====
section
/-!
SUPPORT. The packing of four fields into a word, bit by bit: fields of a packed word, and the word of its own fields.
-/

namespace Sys2Proof

theorem decodeFields_opcode_encodeFields (f : Fields) : (decodeFields (encodeFields f)).opcode = f.opcode := by
  simp only [decodeFields, encodeFields]
  ext i hi
  simp only [BitVec.getElem_extractLsb', BitVec.getLsbD_or, BitVec.getLsbD_shiftLeft, BitVec.getLsbD_setWidth]
  interval_cases i <;> simp [BitVec.getLsbD_of_ge]

theorem decodeFields_op1_encodeFields (f : Fields) : (decodeFields (encodeFields f)).op1 = f.op1 := by
  simp only [decodeFields, encodeFields]
  ext i hi
  simp only [BitVec.getElem_extractLsb', BitVec.getLsbD_or, BitVec.getLsbD_shiftLeft, BitVec.getLsbD_setWidth]
  interval_cases i <;> simp [BitVec.getLsbD_of_ge]

theorem decodeFields_op2_encodeFields (f : Fields) : (decodeFields (encodeFields f)).op2 = f.op2 := by
  simp only [decodeFields, encodeFields]
  ext i hi
  simp only [BitVec.getElem_extractLsb', BitVec.getLsbD_or, BitVec.getLsbD_shiftLeft, BitVec.getLsbD_setWidth]
  interval_cases i <;> simp [BitVec.getLsbD_of_ge]

theorem decodeFields_op3_encodeFields (f : Fields) : (decodeFields (encodeFields f)).op3 = f.op3 := by
  simp only [decodeFields, encodeFields]
  ext i hi
  simp only [BitVec.getElem_extractLsb', BitVec.getLsbD_or, BitVec.getLsbD_shiftLeft, BitVec.getLsbD_setWidth]
  interval_cases i <;> simp

/-- The fields of a packed word are the fields packed. -/
theorem decodeFields_encodeFields (f : Fields) : decodeFields (encodeFields f) = f := by
  rcases h : decodeFields (encodeFields f) with ⟨a, b, c, d⟩
  have h0 := decodeFields_opcode_encodeFields f
  have h1 := decodeFields_op1_encodeFields f
  have h2 := decodeFields_op2_encodeFields f
  have h3 := decodeFields_op3_encodeFields f
  rw [h] at h0 h1 h2 h3
  cases f
  simp_all

/-- Packing the fields of a word gives the word. -/
theorem encodeFields_decodeFields (w : Word) : encodeFields (decodeFields w) = w := by
  simp only [decodeFields, encodeFields]
  ext i hi
  simp only [BitVec.getElem_or, BitVec.getElem_shiftLeft, BitVec.getElem_setWidth,
    BitVec.getLsbD_extractLsb']
  interval_cases i <;> simp [BitVec.getLsbD_eq_getElem]

/-- The packed word is the four fields side by side, opcode most significant (the patterns of rule R77). -/
theorem encodeFields_append (f : Fields) : encodeFields f = f.opcode ++ f.op1 ++ f.op2 ++ f.op3 := by
  obtain ⟨⟨⟨a, ha⟩⟩, ⟨⟨b, hb⟩⟩, ⟨⟨c, hc⟩⟩, ⟨⟨d, hd⟩⟩⟩ := f
  apply BitVec.eq_of_toNat_eq
  have hm : ∀ n, n < 2 ^ 16 → n % 2 ^ 16 = n := fun n h => Nat.mod_eq_of_lt h
  simp only [encodeFields, BitVec.toNat_or, BitVec.toNat_shiftLeft, BitVec.toNat_setWidth]
  erw [BitVec.toNat_append, BitVec.toNat_append, BitVec.toNat_append]
  simp only [BitVec.toNat, Nat.shiftLeft_or_distrib, ← Nat.shiftLeft_add]
  simp only [Nat.shiftLeft_eq] at *
  rw [hm a (by omega), hm b (by omega), hm c (by omega), hm d (by omega), hm _ (by omega), hm _ (by omega),
    hm _ (by omega)]

end Sys2Proof
end

