-- ==== Sys2Proof/Laws/Memory.lean ====
section
/-!
SUPPORT. Memory as data: a read after a write, for every list of cells, and that every memory operation keeps the
canonical form `Memory.Wf` and lists no cell besides the one written.
-/

namespace Sys2Proof.Machine

@[simp] theorem Memory.read_nil (a : Nat) : Memory.read [] a = unlistedCell := rfl

theorem Memory.read_cons (b : Nat) (v : Word) (m : Memory) (a : Nat) :
    Memory.read ((b, v) :: m) a = if a = b then v else m.read a := rfl

/-- Unlisting a cell makes it hold the reset content and leaves every other cell alone. -/
theorem Memory.read_unlist (m : Memory) (a b : Nat) :
    (m.unlist a).read b = if b = a then unlistedCell else m.read b := by
  induction m with
  | nil => simp [Memory.unlist]
  | cons c m ih =>
    obtain ⟨k, w⟩ := c
    unfold Memory.unlist at ih ⊢
    by_cases hk : k = a
    · subst hk
      simp only [ne_eq, not_true_eq_false, decide_false, Bool.false_eq_true, not_false_eq_true,
        List.filter_cons_of_neg, ih, Memory.read_cons]
      split <;> rfl
    · simp only [ne_eq, hk, not_false_eq_true, decide_true, List.filter_cons_of_pos, Memory.read_cons, ih]
      by_cases hb : b = k
      · simp [hb, hk]
      · simp [hb]

/-- Entering a cell that is not listed adds exactly that cell. -/
theorem Memory.read_enter (m : Memory) (a : Nat) (v : Word) (b : Nat) (h : ∀ c ∈ m, c.1 ≠ a) :
    (m.enter a v).read b = if b = a then v else m.read b := by
  induction m with
  | nil => simp [Memory.enter, Memory.read_cons]
  | cons c m ih =>
    obtain ⟨k, w⟩ := c
    have hk : k ≠ a := h (k, w) (by simp)
    have hm : ∀ c ∈ m, c.1 ≠ a := fun c hc => h c (by simp [hc])
    simp only [Memory.enter]
    split
    · simp [Memory.read_cons]
    · simp only [Memory.read_cons, ih hm]
      by_cases hb : b = k
      · simp [hb, hk]
      · simp [hb]

theorem Memory.unlist_absent (m : Memory) (a : Nat) : ∀ c ∈ m.unlist a, c.1 ≠ a := by
  simp [Memory.unlist]

/-- The whole behaviour of a write, on any list of cells: the cell holds the value, every other cell what it held. -/
theorem Memory.read_write (m : Memory) (a : Nat) (v : Word) (b : Nat) :
    (m.write a v).read b = if b = a then v else m.read b := by
  unfold Memory.write
  split
  · next h => simp [Memory.read_unlist, h]
  · rw [Memory.read_enter _ _ _ _ (m.unlist_absent a), Memory.read_unlist]
    split <;> rfl

theorem Memory.mem_enter (m : Memory) (a : Nat) (v : Word) (c : Nat × Word) :
    c ∈ m.enter a v ↔ c = (a, v) ∨ c ∈ m := by
  induction m with
  | nil => simp [Memory.enter]
  | cons d m ih =>
    obtain ⟨k, w⟩ := d
    simp only [Memory.enter]
    split
    · simp
    · simp only [List.mem_cons, ih]
      tauto

/-- A write lists no cell besides the one written. -/
theorem Memory.mem_write (m : Memory) (a : Nat) (v : Word) (c : Nat × Word) (h : c ∈ m.write a v) :
    c.1 = a ∨ c ∈ m := by
  unfold Memory.write at h
  split at h
  · exact .inr (List.mem_of_mem_filter h)
  · rcases (Memory.mem_enter _ _ _ _).1 h with rfl | hc
    · exact .inl rfl
    · exact .inr (List.mem_of_mem_filter hc)

theorem Memory.wf_nil : Memory.Wf [] := ⟨List.Pairwise.nil, by simp⟩

theorem Memory.wf_unlist {m : Memory} (h : m.Wf) (a : Nat) : (m.unlist a).Wf :=
  ⟨h.1.filter _, fun c hc => h.2 c (List.mem_of_mem_filter hc)⟩

theorem Memory.pairwise_enter (m : Memory) (a : Nat) (v : Word) (h : m.Pairwise (fun c d => c.1 < d.1))
    (ha : ∀ c ∈ m, c.1 ≠ a) : (m.enter a v).Pairwise (fun c d => c.1 < d.1) := by
  induction m with
  | nil => simp [Memory.enter]
  | cons c m ih =>
    obtain ⟨k, w⟩ := c
    have hk : k ≠ a := ha (k, w) (by simp)
    have hm : ∀ c ∈ m, c.1 ≠ a := fun c hc => ha c (by simp [hc])
    rw [List.pairwise_cons] at h
    simp only [Memory.enter]
    split
    · next hlt =>
      refine List.pairwise_cons.2 ⟨?_, List.pairwise_cons.2 h⟩
      intro d hd
      rcases List.mem_cons.1 hd with rfl | hd
      · exact hlt
      · exact Nat.lt_trans hlt (h.1 d hd)
    · next hge =>
      refine List.pairwise_cons.2 ⟨?_, ih h.2 hm⟩
      intro d hd
      rcases (Memory.mem_enter _ _ _ _).1 hd with rfl | hd
      · show k < a
        omega
      · exact h.1 d hd

/-- A write keeps the canonical form. -/
theorem Memory.wf_write {m : Memory} (h : m.Wf) (a : Nat) (v : Word) : (m.write a v).Wf := by
  unfold Memory.write
  split
  · exact Memory.wf_unlist h a
  · next hv =>
    have hu := Memory.wf_unlist h a
    refine ⟨Memory.pairwise_enter _ _ _ hu.1 (m.unlist_absent a), fun c hc => ?_⟩
    rcases (Memory.mem_enter _ _ _ _).1 hc with rfl | hc
    · exact hv
    · exact hu.2 c hc

/-- Loading words keeps the canonical form. -/
theorem Memory.wf_writeFrom {m : Memory} (h : m.Wf) (a : Nat) (ws : List Word) : (m.writeFrom a ws).Wf := by
  induction ws generalizing m a with
  | nil => exact h
  | cons w ws ih => exact ih (Memory.wf_write h a w) (a + 1)

/-- Loading `n` words from address `a` lists no cell besides `a` to `a + n - 1`. -/
theorem Memory.mem_writeFrom (m : Memory) (a : Nat) (ws : List Word) (c : Nat × Word)
    (h : c ∈ m.writeFrom a ws) : (a ≤ c.1 ∧ c.1 < a + ws.length) ∨ c ∈ m := by
  induction ws generalizing m a with
  | nil => exact .inr h
  | cons w ws ih =>
    rcases ih _ _ h with hc | hc
    · left
      simp only [List.length_cons]
      omega
    · rcases Memory.mem_write _ _ _ _ hc with hc | hc
      · left
        simp only [List.length_cons]
        omega
      · exact .inr hc

/-- The cells after loading words from address `a`: word `k` in cell `a + k`, every other cell as before. -/
theorem Memory.read_writeFrom (m : Memory) (a : Nat) (ws : List Word) (b : Nat) :
    (m.writeFrom a ws).read b = if a ≤ b then (ws[b - a]?).getD (m.read b) else m.read b := by
  induction ws generalizing m a with
  | nil => simp [Memory.writeFrom]
  | cons w ws ih =>
    simp only [Memory.writeFrom, ih, Memory.read_write]
    rcases Nat.lt_trichotomy a b with h | h | h
    · obtain ⟨k, rfl⟩ : ∃ k, b = a + 1 + k := ⟨b - (a + 1), by omega⟩
      have h2 : a + 1 + k - a = k + 1 := by omega
      simp [h2, show a ≤ a + 1 + k by omega, show a + 1 + k ≠ a by omega]
    · subst h
      simp
    · simp [show ¬ a ≤ b by omega, show ¬ a + 1 ≤ b by omega, show b ≠ a by omega]

end Sys2Proof.Machine
end

