-- ==== Sys2Proof/Laws/State.lean ====
section
/-!
SUPPORT. One lemma per field of `State` per update, so that no later proof unfolds a record update.
-/

namespace Sys2Proof.Machine

@[simp] theorem State.setX_cfg (s : State) (v : Vector Word 8) : (s.setX v).cfg = s.cfg := rfl
@[simp] theorem State.setX_x (s : State) (v : Vector Word 8) : (s.setX v).x = v := rfl
@[simp] theorem State.setX_pc (s : State) (v : Vector Word 8) : (s.setX v).pc = s.pc := rfl
@[simp] theorem State.setX_state (s : State) (v : Vector Word 8) : (s.setX v).state = s.state := rfl
@[simp] theorem State.setX_reason (s : State) (v : Vector Word 8) : (s.setX v).reason = s.reason := rfl
@[simp] theorem State.setX_faultWord (s : State) (v : Vector Word 8) : (s.setX v).faultWord = s.faultWord := rfl
@[simp] theorem State.setX_faultPc (s : State) (v : Vector Word 8) : (s.setX v).faultPc = s.faultPc := rfl
@[simp] theorem State.setX_mem (s : State) (v : Vector Word 8) : (s.setX v).mem = s.mem := rfl

@[simp] theorem State.setMem_cfg (s : State) (m : Memory) : (s.setMem m).cfg = s.cfg := rfl
@[simp] theorem State.setMem_x (s : State) (m : Memory) : (s.setMem m).x = s.x := rfl
@[simp] theorem State.setMem_pc (s : State) (m : Memory) : (s.setMem m).pc = s.pc := rfl
@[simp] theorem State.setMem_state (s : State) (m : Memory) : (s.setMem m).state = s.state := rfl
@[simp] theorem State.setMem_reason (s : State) (m : Memory) : (s.setMem m).reason = s.reason := rfl
@[simp] theorem State.setMem_faultWord (s : State) (m : Memory) : (s.setMem m).faultWord = s.faultWord := rfl
@[simp] theorem State.setMem_faultPc (s : State) (m : Memory) : (s.setMem m).faultPc = s.faultPc := rfl
@[simp] theorem State.setMem_mem (s : State) (m : Memory) : (s.setMem m).mem = m := rfl

@[simp] theorem State.setPc_cfg (s : State) (p : Nat) : (s.setPc p).cfg = s.cfg := rfl
@[simp] theorem State.setPc_x (s : State) (p : Nat) : (s.setPc p).x = s.x := rfl
@[simp] theorem State.setPc_pc (s : State) (p : Nat) : (s.setPc p).pc = p := rfl
@[simp] theorem State.setPc_state (s : State) (p : Nat) : (s.setPc p).state = s.state := rfl
@[simp] theorem State.setPc_reason (s : State) (p : Nat) : (s.setPc p).reason = s.reason := rfl
@[simp] theorem State.setPc_faultWord (s : State) (p : Nat) : (s.setPc p).faultWord = s.faultWord := rfl
@[simp] theorem State.setPc_faultPc (s : State) (p : Nat) : (s.setPc p).faultPc = s.faultPc := rfl
@[simp] theorem State.setPc_mem (s : State) (p : Nat) : (s.setPc p).mem = s.mem := rfl

@[simp] theorem State.setState_cfg (s : State) (e : EngineState) : (s.setState e).cfg = s.cfg := rfl
@[simp] theorem State.setState_x (s : State) (e : EngineState) : (s.setState e).x = s.x := rfl
@[simp] theorem State.setState_pc (s : State) (e : EngineState) : (s.setState e).pc = s.pc := rfl
@[simp] theorem State.setState_state (s : State) (e : EngineState) : (s.setState e).state = e := rfl
@[simp] theorem State.setState_reason (s : State) (e : EngineState) : (s.setState e).reason = s.reason := rfl
@[simp] theorem State.setState_faultWord (s : State) (e : EngineState) : (s.setState e).faultWord = s.faultWord := rfl
@[simp] theorem State.setState_faultPc (s : State) (e : EngineState) : (s.setState e).faultPc = s.faultPc := rfl
@[simp] theorem State.setState_mem (s : State) (e : EngineState) : (s.setState e).mem = s.mem := rfl

@[simp] theorem State.setReason_cfg (s : State) (r : StopReason) : (s.setReason r).cfg = s.cfg := rfl
@[simp] theorem State.setReason_x (s : State) (r : StopReason) : (s.setReason r).x = s.x := rfl
@[simp] theorem State.setReason_pc (s : State) (r : StopReason) : (s.setReason r).pc = s.pc := rfl
@[simp] theorem State.setReason_state (s : State) (r : StopReason) : (s.setReason r).state = s.state := rfl
@[simp] theorem State.setReason_reason (s : State) (r : StopReason) : (s.setReason r).reason = r := rfl
@[simp] theorem State.setReason_faultWord (s : State) (r : StopReason) : (s.setReason r).faultWord = s.faultWord := rfl
@[simp] theorem State.setReason_faultPc (s : State) (r : StopReason) : (s.setReason r).faultPc = s.faultPc := rfl
@[simp] theorem State.setReason_mem (s : State) (r : StopReason) : (s.setReason r).mem = s.mem := rfl

@[simp] theorem State.setFaultRecord_cfg (s : State) (w : Word) (p : Nat) : (s.setFaultRecord w p).cfg = s.cfg := rfl
@[simp] theorem State.setFaultRecord_x (s : State) (w : Word) (p : Nat) : (s.setFaultRecord w p).x = s.x := rfl
@[simp] theorem State.setFaultRecord_pc (s : State) (w : Word) (p : Nat) : (s.setFaultRecord w p).pc = s.pc := rfl
@[simp] theorem State.setFaultRecord_state (s : State) (w : Word) (p : Nat) : (s.setFaultRecord w p).state = s.state := rfl
@[simp] theorem State.setFaultRecord_reason (s : State) (w : Word) (p : Nat) : (s.setFaultRecord w p).reason = s.reason := rfl
@[simp] theorem State.setFaultRecord_faultWord (s : State) (w : Word) (p : Nat) : (s.setFaultRecord w p).faultWord = w := rfl
@[simp] theorem State.setFaultRecord_faultPc (s : State) (w : Word) (p : Nat) : (s.setFaultRecord w p).faultPc = p := rfl
@[simp] theorem State.setFaultRecord_mem (s : State) (w : Word) (p : Nat) : (s.setFaultRecord w p).mem = s.mem := rfl

end Sys2Proof.Machine
end

