-- ==== Sys2Proof/Laws/Ops.lean ====
section
/-!
SUPPORT. For each shared operation of Machine/Ops.lean, what it can do, said once.
-/

namespace Sys2Proof.Machine

/-! ## Operands and bounds-checked access -/

theorem registerIndex_of_lt {f : Nibble} (h : f.toNat < 8) : registerIndex f = some ⟨f.toNat, h⟩ := by
  simp [registerIndex, h]

theorem registerIndex_of_ge {f : Nibble} (h : 8 ≤ f.toNat) : registerIndex f = none := by
  simp [registerIndex, Nat.not_lt.2 h]

theorem readRegister_of_lt {s : State} {f : Nibble} (h : f.toNat < 8) :
    readRegister s f = some (s.x[f.toNat]'h) := by
  simp [readRegister, registerIndex_of_lt h]

theorem readRegister_of_ge {s : State} {f : Nibble} (h : 8 ≤ f.toNat) : readRegister s f = none := by
  simp [readRegister, registerIndex_of_ge h]

theorem writeRegister_of_lt {s : State} {f : Nibble} {v : Word} (h : f.toNat < 8) :
    writeRegister s f v = some (s.setX (s.x.set f.toNat v h)) := by
  simp [writeRegister, registerIndex_of_lt h]

theorem writeRegister_of_ge {s : State} {f : Nibble} {v : Word} (h : 8 ≤ f.toNat) : writeRegister s f v = none := by
  simp [writeRegister, registerIndex_of_ge h]

theorem readCell_of_lt {s : State} {a : Nat} (h : a < s.cfg.memSize) : readCell s a = some (s.mem.read a) := by
  simp [readCell, h]

theorem readCell_of_ge {s : State} {a : Nat} (h : s.cfg.memSize ≤ a) : readCell s a = none := by
  simp [readCell, Nat.not_lt.2 h]

theorem writeCell_of_lt {s : State} {a : Nat} {v : Word} (h : a < s.cfg.memSize) :
    writeCell s a v = some (s.setMem (s.mem.write a v)) := by
  simp [writeCell, h]

theorem writeCell_of_ge {s : State} {a : Nat} {v : Word} (h : s.cfg.memSize ≤ a) : writeCell s a v = none := by
  simp [writeCell, Nat.not_lt.2 h]

theorem fetch_of_lt {s : State} (h : s.pc < s.cfg.memSize) : fetch s = some (s.mem.read s.pc) := readCell_of_lt h

theorem fetch_of_ge {s : State} (h : s.cfg.memSize ≤ s.pc) : fetch s = none := readCell_of_ge h

/-! ## Faults, halts, the advance -/

@[simp] theorem raise_cfg (f : FaultCause) (w : Word) (s : State) : (raise f w s).cfg = s.cfg := rfl
@[simp] theorem raise_x (f : FaultCause) (w : Word) (s : State) : (raise f w s).x = s.x := rfl
@[simp] theorem raise_pc (f : FaultCause) (w : Word) (s : State) : (raise f w s).pc = s.pc := rfl
@[simp] theorem raise_state (f : FaultCause) (w : Word) (s : State) : (raise f w s).state = .faulted := rfl
@[simp] theorem raise_reason (f : FaultCause) (w : Word) (s : State) : (raise f w s).reason = reasonOfFault f := rfl
@[simp] theorem raise_faultWord (f : FaultCause) (w : Word) (s : State) : (raise f w s).faultWord = w := rfl
@[simp] theorem raise_faultPc (f : FaultCause) (w : Word) (s : State) : (raise f w s).faultPc = s.pc := rfl
@[simp] theorem raise_mem (f : FaultCause) (w : Word) (s : State) : (raise f w s).mem = s.mem := rfl

@[simp] theorem halt_cfg (h : HaltCause) (s : State) : (halt h s).cfg = s.cfg := rfl
@[simp] theorem halt_x (h : HaltCause) (s : State) : (halt h s).x = s.x := rfl
@[simp] theorem halt_pc (h : HaltCause) (s : State) : (halt h s).pc = s.pc := rfl
@[simp] theorem halt_state (h : HaltCause) (s : State) : (halt h s).state = .halted := rfl
@[simp] theorem halt_reason (h : HaltCause) (s : State) : (halt h s).reason = reasonOfHalt h := rfl
@[simp] theorem halt_faultWord (h : HaltCause) (s : State) : (halt h s).faultWord = s.faultWord := rfl
@[simp] theorem halt_faultPc (h : HaltCause) (s : State) : (halt h s).faultPc = s.faultPc := rfl
@[simp] theorem halt_mem (h : HaltCause) (s : State) : (halt h s).mem = s.mem := rfl

@[simp] theorem advance_cfg (s : State) : (advance s).cfg = s.cfg := by unfold advance; split <;> rfl
@[simp] theorem advance_x (s : State) : (advance s).x = s.x := by unfold advance; split <;> rfl
@[simp] theorem advance_pc (s : State) : (advance s).pc = s.pc + 1 := by unfold advance; split <;> rfl
@[simp] theorem advance_faultWord (s : State) : (advance s).faultWord = s.faultWord := by unfold advance; split <;> rfl
@[simp] theorem advance_faultPc (s : State) : (advance s).faultPc = s.faultPc := by unfold advance; split <;> rfl
@[simp] theorem advance_mem (s : State) : (advance s).mem = s.mem := by unfold advance; split <;> rfl

/-- The advance inside memory runs on. -/
theorem advance_running {s : State} (h : s.pc + 1 < s.cfg.memSize) :
    (advance s).state = .running ∧ (advance s).reason = s.reason := by
  simp [advance, Nat.not_le.2 h]

/-- The advance past the last cell halts. -/
theorem advance_endOfMemory {s : State} (h : s.cfg.memSize ≤ s.pc + 1) :
    (advance s).state = .halted ∧ (advance s).reason = .endOfMemory := by
  simp [advance, h, reasonOfHalt]

@[simp] theorem completeOrFault_some (w : Word) (s t : State) : completeOrFault w s (some t) = advance t := rfl

@[simp] theorem completeOrFault_none (w : Word) (s : State) :
    completeOrFault w s none = raise .outOfBounds w s := rfl

/-! ## The canonical form of memory through the operations -/

theorem raise_keeps_wf {s : State} (h : s.mem.Wf) (f : FaultCause) (w : Word) : (raise f w s).mem.Wf := by simpa using h

theorem halt_keeps_wf {s : State} (h : s.mem.Wf) (c : HaltCause) : (halt c s).mem.Wf := by simpa using h

theorem advance_keeps_wf {s : State} (h : s.mem.Wf) : (advance s).mem.Wf := by simpa using h

theorem writeRegister_keeps_wf {s t : State} {f : Nibble} {v : Word} (h : s.mem.Wf)
    (ht : writeRegister s f v = some t) : t.mem.Wf := by
  simp only [writeRegister, Option.map_eq_some_iff] at ht
  obtain ⟨r, -, rfl⟩ := ht
  exact h

theorem writeCell_keeps_wf {s t : State} {a : Nat} {v : Word} (h : s.mem.Wf)
    (ht : writeCell s a v = some t) : t.mem.Wf := by
  unfold writeCell at ht
  split at ht
  · cases ht
    exact Memory.wf_write h a v
  · cases ht

theorem resetOf_mem_wf (c : Config) : (State.resetOf c).mem.Wf := Memory.wf_nil

end Sys2Proof.Machine
end

