-- ==== Sys2Proof/Laws/Exec.lean ====
section
/-!
SUPPORT. One equation per meaning and outcome, and what any instruction can do, said once (`exec_cases`).
-/

namespace Sys2Proof.Machine

section
variable {op1 op2 op3 : Nibble} {s : State}

theorem execAdd_completes (h1 : op1.toNat < 8) (h2 : op2.toNat < 8) :
    execAdd op1 op2 op3 s =
      .next (advance (s.setX (s.x.set op1.toNat (wrappedSum (s.x[op1.toNat]'h1) (s.x[op2.toNat]'h2)) h1))) := by
  simp [execAdd, readRegister_of_lt h1, readRegister_of_lt h2, writeRegister_of_lt h1]

theorem execAdd_faults (h : 8 ≤ op1.toNat ∨ 8 ≤ op2.toNat) :
    execAdd op1 op2 op3 s = .next (raise .outOfBounds (encode s.cfg.opcodes (.add op1 op2 op3)) s) := by
  rcases Nat.lt_or_ge op1.toNat 8 with h1 | h1
  · have h2 : 8 ≤ op2.toNat := by omega
    simp [execAdd, readRegister_of_lt h1, readRegister_of_ge h2]
  · simp [execAdd, readRegister_of_ge h1]

theorem execSub_completes (h1 : op1.toNat < 8) (h2 : op2.toNat < 8) :
    execSub op1 op2 op3 s =
      .next (advance (s.setX
        (s.x.set op1.toNat (wrappedDifference (s.x[op1.toNat]'h1) (s.x[op2.toNat]'h2)) h1))) := by
  simp [execSub, readRegister_of_lt h1, readRegister_of_lt h2, writeRegister_of_lt h1]

theorem execSub_faults (h : 8 ≤ op1.toNat ∨ 8 ≤ op2.toNat) :
    execSub op1 op2 op3 s = .next (raise .outOfBounds (encode s.cfg.opcodes (.sub op1 op2 op3)) s) := by
  rcases Nat.lt_or_ge op1.toNat 8 with h1 | h1
  · have h2 : 8 ≤ op2.toNat := by omega
    simp [execSub, readRegister_of_lt h1, readRegister_of_ge h2]
  · simp [execSub, readRegister_of_ge h1]

theorem execLoad_completes (h1 : op1.toNat < 8) (h2 : op2.toNat < s.cfg.memSize) :
    execLoad op1 op2 op3 s = .next (advance (s.setX (s.x.set op1.toNat (s.mem.read op2.toNat) h1))) := by
  simp [execLoad, effectiveAddress, readCell_of_lt h2, writeRegister_of_lt h1]

theorem execLoad_faults (h : 8 ≤ op1.toNat ∨ s.cfg.memSize ≤ op2.toNat) :
    execLoad op1 op2 op3 s = .next (raise .outOfBounds (encode s.cfg.opcodes (.load op1 op2 op3)) s) := by
  rcases Nat.lt_or_ge op2.toNat s.cfg.memSize with h2 | h2
  · have h1 : 8 ≤ op1.toNat := by omega
    simp [execLoad, effectiveAddress, readCell_of_lt h2, writeRegister_of_ge h1]
  · simp [execLoad, effectiveAddress, readCell_of_ge h2]

theorem execStore_completes (h1 : op1.toNat < 8) (h2 : op2.toNat < s.cfg.memSize) :
    execStore op1 op2 op3 s = .next (advance (s.setMem (s.mem.write op2.toNat (s.x[op1.toNat]'h1)))) := by
  simp [execStore, effectiveAddress, readRegister_of_lt h1, writeCell_of_lt h2]

theorem execStore_faults (h : 8 ≤ op1.toNat ∨ s.cfg.memSize ≤ op2.toNat) :
    execStore op1 op2 op3 s = .next (raise .outOfBounds (encode s.cfg.opcodes (.store op1 op2 op3)) s) := by
  rcases Nat.lt_or_ge op1.toNat 8 with h1 | h1
  · have h2 : s.cfg.memSize ≤ op2.toNat := by omega
    simp [execStore, effectiveAddress, readRegister_of_lt h1, writeCell_of_ge h2]
  · simp [execStore, readRegister_of_ge h1]

theorem execExit_halts (h : s.cfg.hasExit = true) : execExit op1 op2 op3 s = .next (halt .exit s) := by
  simp [execExit, h]

theorem execExit_faults (h : s.cfg.hasExit = false) :
    execExit op1 op2 op3 s = .next (raise .invalidOpcode (encode s.cfg.opcodes (.exit op1 op2 op3)) s) := by
  simp [execExit, h]

end

/-- `t` is what one instruction can leave of `s`: one register written and the advance, one of the cells 0 to 15 written
and the advance, the EXIT halt, or a fault on the word `w`. -/
inductive Executed (w : Word) (s : State) : State → Prop where
  | wroteRegister (r : Nat) (h : r < 8) (v : Word) : Executed w s (advance (s.setX (s.x.set r v h)))
  | wroteCell (a : Nat) (ha : a < s.cfg.memSize) (hr : a < 16) (v : Word) :
      Executed w s (advance (s.setMem (s.mem.write a v)))
  | exited (h : s.cfg.hasExit = true) : Executed w s (halt .exit s)
  | faulted (f : FaultCause) : Executed w s (raise f w s)

/-- Everything `exec` can do: it always answers a next state, and one of four kinds. -/
theorem exec_cases (i : Instr) (s : State) :
    ∃ t, exec i s = .next t ∧ Executed (encode s.cfg.opcodes i) s t := by
  cases i with
  | add op1 op2 op3 =>
    by_cases h : op1.toNat < 8 ∧ op2.toNat < 8
    · exact ⟨_, execAdd_completes h.1 h.2, .wroteRegister _ h.1 _⟩
    · exact ⟨_, execAdd_faults (by omega), .faulted _⟩
  | sub op1 op2 op3 =>
    by_cases h : op1.toNat < 8 ∧ op2.toNat < 8
    · exact ⟨_, execSub_completes h.1 h.2, .wroteRegister _ h.1 _⟩
    · exact ⟨_, execSub_faults (by omega), .faulted _⟩
  | load op1 op2 op3 =>
    by_cases h : op1.toNat < 8 ∧ op2.toNat < s.cfg.memSize
    · exact ⟨_, execLoad_completes h.1 h.2, .wroteRegister _ h.1 _⟩
    · exact ⟨_, execLoad_faults (by omega), .faulted _⟩
  | store op1 op2 op3 =>
    by_cases h : op1.toNat < 8 ∧ op2.toNat < s.cfg.memSize
    · exact ⟨_, execStore_completes h.1 h.2, .wroteCell _ h.2 op2.isLt _⟩
    · exact ⟨_, execStore_faults (by omega), .faulted _⟩
  | exit op1 op2 op3 =>
    cases h : s.cfg.hasExit with
    | true => exact ⟨_, execExit_halts h, .exited h⟩
    | false => exact ⟨_, execExit_faults h, .faulted _⟩

end Sys2Proof.Machine
end

