-- ==== Sys2Proof/Laws/Step.lean ====
section
/-!
SUPPORT. What a step can do, said once (`step_cases`): every invariant is derived from it.
-/

namespace Sys2Proof

/-- A decoded instruction encodes to the word it was decoded from, under any opcode numbers. -/
theorem encode_of_decode {c : Config} {w : Word} {i : Instr} (h : decode c w = .ok i) : encode c.opcodes i = w := by
  have hw := encodeFields_decodeFields w
  unfold decode instrOfFields at h
  generalize decodeFields w = f at h hw
  obtain ⟨o, a, b, d⟩ := f
  simp only at h
  repeat' split at h
  all_goals cases h
  all_goals simp_all [encode, Instr.fields]

end Sys2Proof

namespace Sys2Proof.Machine

theorem step_of_not_canStep {s : State} (h : ¬ s.CanStep) : step s = .next s := by simp [step, h]

theorem step_of_canStep {s : State} (h : s.CanStep) (hp : s.pc < s.cfg.memSize) :
    step s = executeWord (s.mem.read s.pc) s := by
  simp [step, h, fetch_of_lt hp]

theorem step_of_outside {s : State} (h : s.CanStep) (hp : s.cfg.memSize ≤ s.pc) : step s = .fault .fetchOutOfBounds := by
  simp [step, h, fetch_of_ge hp]

/-- Executing a word always answers a next state, of one of the four kinds. -/
theorem executeWord_cases (w : Word) (s : State) : ∃ t, executeWord w s = .next t ∧ Executed w s t := by
  unfold executeWord
  cases h : decode s.cfg w with
  | error e => exact ⟨_, rfl, .faulted _⟩
  | ok i =>
    have := exec_cases i s
    rwa [encode_of_decode h] at this

/-- Everything a step that answers a next state can have done. -/
theorem step_cases {s t : State} (h : step s = .next t) :
    (¬ s.CanStep ∧ t = s) ∨ (s.CanStep ∧ s.pc < s.cfg.memSize ∧ Executed (s.mem.read s.pc) s t) := by
  by_cases hc : s.CanStep
  · rcases Nat.lt_or_ge s.pc s.cfg.memSize with hp | hp
    · obtain ⟨u, hu, he⟩ := executeWord_cases (s.mem.read s.pc) s
      rw [step_of_canStep hc hp, hu] at h
      cases h
      exact .inr ⟨hc, hp, he⟩
    · rw [step_of_outside hc hp] at h
      cases h
  · rw [step_of_not_canStep hc] at h
    cases h
    exact .inl ⟨hc, rfl⟩

/-- A step keeps memory's canonical form. -/
theorem step_keeps_mem_wf {s t : State} (hs : s.mem.Wf) (h : step s = .next t) : t.mem.Wf := by
  rcases step_cases h with ⟨-, rfl⟩ | ⟨-, -, he⟩
  · exact hs
  · cases he with
    | wroteRegister r hr v => simpa using hs
    | wroteCell a ha hr v => simpa using Memory.wf_write hs a v
    | exited _ => simpa using hs
    | faulted f => simpa using hs

theorem withFetchWord_keeps_mem_wf {s : State} (hs : s.mem.Wf) (nbits w : Nat) : (s.withFetchWord nbits w).mem.Wf :=
  Memory.wf_write hs _ _

end Sys2Proof.Machine
end

