-- ==== Sys2Proof/Laws/HostInterface.lean ====
section
/-!
SUPPORT. The loader's outcomes and the first equations of `steps`.
-/

namespace Sys2Proof.Machine

/-- What a load can do: refuse and leave the state, or write words from address 0. -/
theorem loadProgram_cases (p : List InstrTuple) (s : State) :
    ((loadProgram p s).1 = s ∧ (loadProgram p s).2 ≠ none) ∨
    (s.state = .ready ∧ p.length ≤ s.cfg.memSize ∧
      ∃ ws, encodeProgram p = .ok ws ∧ loadProgram p s = (s.setMem (s.mem.writeFrom 0 ws), none)) := by
  unfold loadProgram
  split
  · exact .inl ⟨rfl, by simp⟩
  · next hr =>
    split
    · exact .inl ⟨rfl, by simp⟩
    · next hl =>
      cases he : encodeProgram p with
      | error e => exact .inl ⟨rfl, by simp⟩
      | ok ws => exact .inr ⟨not_not.1 hr, by omega, ws, rfl, rfl⟩

/-- A load keeps memory's canonical form. -/
theorem loadProgram_keeps_mem_wf {s : State} (hs : s.mem.Wf) (p : List InstrTuple) : (loadProgram p s).1.mem.Wf := by
  rcases loadProgram_cases p s with ⟨h, -⟩ | ⟨-, -, ws, -, h⟩
  · rwa [h]
  · rw [h]
    exact Memory.wf_writeFrom hs 0 ws

/-- An encoded program has as many words as tuples. -/
theorem encodeProgram_length {p : List InstrTuple} {ws : List Word} (h : encodeProgram p = .ok ws) :
    ws.length = p.length := by
  induction p generalizing ws with
  | nil => cases h; rfl
  | cons t p ih =>
    unfold encodeProgram at h
    split at h
    · next w us _ hus =>
      cases h
      simp [ih hus]
    · cases h

@[simp] theorem steps_zero (s : State) : steps 0 s = .next s := rfl

theorem steps_succ_of_next {s t : State} (h : step s = .next t) (n : Nat) : steps (n + 1) s = steps n t := by
  simp [steps, h]

/-- Step requests made in two runs of them. -/
theorem steps_add (m n : Nat) (s : State) :
    steps (m + n) s =
      match steps m s with
      | .next t    => steps n t
      | .fault f   => .fault f
      | .refused r => .refused r := by
  induction m generalizing s with
  | zero => simp
  | succ m ih =>
    rw [Nat.add_right_comm]
    simp only [steps]
    cases step s with
    | next t => exact ih t
    | fault f => rfl
    | refused r => rfl

/-- What every step keeps, any number of step requests keeps. -/
theorem steps_keep {P : State → Prop} (hP : ∀ s t, P s → step s = .next t → P t) (n : Nat) (s t : State)
    (hs : P s) (h : steps n s = .next t) : P t := by
  induction n generalizing s with
  | zero =>
    cases h
    exact hs
  | succ n ih =>
    unfold steps at h
    split at h
    · next u hu => exact ih u (hP s u hs hu) h
    · cases h
    · cases h

end Sys2Proof.Machine
end

