-- ==== Sys2Proof/Laws/PerInstr.lean ====
section
/-!
SUPPORT. The per-instruction family `FieldsKept`: the word of an instruction holds its opcode number and its three
operand fields, the unused ones too (rules R71, R79).
-/

namespace Sys2Proof.Laws

/-- Decoding the fields of an instruction's word gives back its fields, under any opcode numbers. -/
def FieldsKept.Statement (i : Instr) : Prop :=
  ∀ m : OpcodeMap, decodeFields (encode m i) = i.fields m

theorem FieldsKept.add (op1 op2 op3 : Nibble) : FieldsKept.Statement (.add op1 op2 op3) :=
  fun _ => decodeFields_encodeFields _

theorem FieldsKept.sub (op1 op2 op3 : Nibble) : FieldsKept.Statement (.sub op1 op2 op3) :=
  fun _ => decodeFields_encodeFields _

theorem FieldsKept.load (op1 op2 op3 : Nibble) : FieldsKept.Statement (.load op1 op2 op3) :=
  fun _ => decodeFields_encodeFields _

theorem FieldsKept.store (op1 op2 op3 : Nibble) : FieldsKept.Statement (.store op1 op2 op3) :=
  fun _ => decodeFields_encodeFields _

theorem FieldsKept.exit (op1 op2 op3 : Nibble) : FieldsKept.Statement (.exit op1 op2 op3) :=
  fun _ => decodeFields_encodeFields _

end Sys2Proof.Laws
end

