-- ==== Sys2Proof/Tests/Slice0.lean ====
section
/-!
SUPPORT. Tests with expected results from 95_test_vectors.md or from a rule by hand, the smoke test of the well-formedness
checks, and for every statement with hypotheses a witness that meets them.
-/

namespace Sys2Proof.Tests

open Sys2Proof Sys2Proof.Machine

/-- A running 32-cell machine: R0 = 1, R1 = 5, R2 = 3, R3 = 10, R4 = 0x8000, R5 = 0x7FFF, R6 = 0, R7 = -1. -/
def running (m : Memory) (p : Nat) : State :=
  { State.reset with x := #v[1, 5, 3, 10, 0x8000, 0x7FFF, 0, 0xFFFF], pc := p, state := .running, mem := m }

/-- A launch state: reset, with the given cells. -/
def launch (n : Nat) (m : Memory) : State := { State.resetOf ⟨n, true, OpcodeMap.d1⟩ with mem := m }

/-- The same machine without EXIT. -/
def withoutExit (s : State) : State := { s with cfg := ⟨s.cfg.memSize, false, s.cfg.opcodes⟩ }

/-- What a view of the next state shows. -/
def seen {α : Type} (o : Host.Outcome State Fault Refusal) (view : State → α) : Option α :=
  match o with
  | .next t    => some (view t)
  | .fault _   => none
  | .refused _ => none

/-- pc, engine state, reason, fault record. -/
def status (s : State) : Nat × EngineState × StopReason × Word × Nat := (s.pc, s.state, s.reason, s.faultWord, s.faultPc)

/-! ## Smoke test of the well-formedness checks -/

theorem test_wf_opcode_too_large : InstrTuple.wellFormed ⟨16, 0, 0, 0⟩ = false := by decide
theorem test_wf_op1_negative : InstrTuple.wellFormed ⟨0, -1, 0, 0⟩ = false := by decide
theorem test_wf_op2_too_large : InstrTuple.wellFormed ⟨3, 3, 20, 0⟩ = false := by decide
theorem test_wf_op3_too_large : InstrTuple.wellFormed ⟨0, 0, 0, 255⟩ = false := by decide
theorem test_wf_largest : InstrTuple.wellFormed ⟨15, 15, 15, 15⟩ = true := by decide
theorem test_wf_exit_absent : Instr.wellFormed ⟨32, false, OpcodeMap.d1⟩ (.exit 0 0 0) = false := by decide
theorem test_wf_no_cells : ¬ Config.WellFormed ⟨0, true, OpcodeMap.d1⟩ := by decide
theorem test_wf_same_numbers : ¬ Config.WellFormed ⟨32, true, ⟨0, 1, 2, 3, 3⟩⟩ := by decide
theorem test_wf_memory_order : ¬ Memory.Wf [(2, 7), (1, 7)] := by decide
theorem test_wf_memory_unlisted : ¬ Memory.Wf [(1, 0)] := by decide

/-! ## Decoding: words written out from the patterns of rule R77 -/

theorem test_decode_add : decode Config.vectors 0b0000000100100000 = .ok (.add 1 2 0) := by decide
theorem test_decode_sub : decode Config.vectors 0b0001001000110100 = .ok (.sub 2 3 4) := by decide
theorem test_decode_load : decode Config.vectors 0b0010001010100000 = .ok (.load 2 10 0) := by decide
theorem test_decode_store : decode Config.vectors 0b0011001111000000 = .ok (.store 3 12 0) := by decide
theorem test_decode_exit : decode Config.vectors 0b0100101010111100 = .ok (.exit 10 11 12) := by decide
theorem test_decode_unrecognised : decode Config.vectors 0b0101000000000000 = .error (.unrecognisedOpcode 5) := by decide
theorem test_decode_fields : decodeFields 0x8001 = ⟨8, 0, 0, 1⟩ := by decide
theorem test_encode_words :
    encode OpcodeMap.d1 (.store 1 12 0) = 0x31C0 ∧ encode OpcodeMap.d1 (.exit 15 15 15) = 0x4FFF := by decide
theorem test_encode_tuple : encodeTuple ⟨0, 1, 15, 0⟩ = .ok 0x01F0 ∧ encodeTuple ⟨15, 0, 0, 0⟩ = .ok 0xF000 := by decide
theorem test_table_word : decodeTableWord 16 0x1310 = some (.sub 3 1 0) := by decide
theorem test_text : Instr.text (.add 1 2 0) = "ADD(1,2,0)" := by decide

/-! ## Instructions -/

/-- Vectors S2 and A1. -/
theorem test_add_step :
    seen (step (running [(9, 0x0120)] 9)) (fun t => (t.x.toList, status t)) =
      some ([1, 8, 3, 10, 0x8000, 0x7FFF, 0, 0xFFFF], 10, .running, .none, 0, 0) := by decide

/-- Vectors A3 and A12: wrap below the range, and two bad indices in one report. -/
theorem test_add_edges :
    seen (step (running [(9, 0x0470)] 9)) (fun t => t.x[4]) = some 0x7FFF ∧
    seen (step (running [(9, 0x0FF0)] 9)) (fun t => (t.x == (running [] 0).x, status t)) =
      some (true, 9, .faulted, .outOfBounds, 0x0FF0, 9) := by decide

/-- Vectors S3 and B1: the destination is the minuend. -/
theorem test_sub_step : seen (step (running [(9, 0x1310)] 9)) (fun t => (t.x[3], t.x[1])) = some (5, 5) := by decide

/-- Vectors B5 and B8: 0 - (-32768), and a source register number above 7. -/
theorem test_sub_edges :
    seen (step (running [(9, 0x1640)] 9)) (fun t => t.x[6]) = some 0x8000 ∧
    seen (step (running [(9, 0x1190)] 9)) (fun t => (t.x[1], status t)) =
      some (5, 9, .faulted, .outOfBounds, 0x1190, 9) := by decide

/-- Vectors L2 and L3: the highest reachable cell; a load of its own word. -/
theorem test_load_step :
    seen (step (running [(9, 0x27F0), (15, 0xABCD)] 9)) (fun t => t.x[7]) = some 0xABCD ∧
    seen (step (launch 32 [(0, 0x2100)])) (fun t => t.x[1]) = some 0x2100 := by decide

/-- Vector L6: an address past an 8-cell memory. -/
theorem test_load_out_of_memory :
    seen (step (launch 8 [(0, 0x2190)])) status = some (0, .faulted, .outOfBounds, 0x2190, 0) := by decide

/-- Vector T3: STORE over its own word completes as a STORE. -/
theorem test_store_step :
    seen (step (running [(2, 0x3720)] 2)) (fun t => (t.mem, status t)) =
      some ([(2, 0xFFFF)], 3, .running, .none, 0, 0) := by decide

/-- Vectors T6 and T5: an address past memory, a register number above 7; no cell changed. -/
theorem test_store_faults :
    seen (step (launch 8 [(0, 0x3180)])) (fun t => (t.mem, status t)) =
      some ([(0, 0x3180)], 0, .faulted, .outOfBounds, 0x3180, 0) ∧
    seen (step (running [(5, 0x3900)] 5)) (fun t => (t.mem, t.reason)) = some ([(5, 0x3900)], .outOfBounds) := by decide

/-- Vectors E2 and E3: operands ignored; EXIT in the last cell. -/
theorem test_exit_step :
    seen (step (running [(31, 0x4FFF)] 31)) status = some (31, .halted, .exit, 0, 0) := by decide

/-- Vector E4: EXIT absent. -/
theorem test_exit_absent :
    seen (step (withoutExit (launch 32 [(0, 0x4000)]))) status = some (0, .faulted, .invalidOpcode, 0x4000, 0) := by decide

/-! ## The step, the host -/

/-- Vector I3: the opcode is checked before the operands. -/
theorem test_invalid_opcode :
    seen (step (running [(3, 0xF9F0)] 3)) status = some (3, .faulted, .invalidOpcode, 0xF9F0, 3) := by decide

/-- Vector X2: one cell; the last instruction completes, Ready goes straight to Halted. -/
theorem test_end_of_memory :
    seen (step (launch 1 [(0, 0x2300)])) (fun t => (t.x[3], status t)) =
      some (0x2300, 1, .halted, .endOfMemory, 0, 0) := by decide

/-- Vector E5: nothing changes in a terminal state. -/
theorem test_step_when_halted :
    seen (step { running [] 32 with state := .halted, reason := .endOfMemory }) id =
      some { running [] 32 with state := .halted, reason := .endOfMemory } := by decide

/-- A placed word is the next instruction. -/
theorem test_placed_word :
    fetch (State.reset.withFetchWord 16 0x4000) = some 0x4000 ∧
    seen (step (State.reset.withFetchWord 16 0x4000)) (fun t => t.reason) = some .exit := by decide

/-- Vectors H3, H6, H7: refused loads. -/
theorem test_load_refused :
    loadProgram [⟨0, 1, 2, 0⟩, ⟨3, 3, 20, 0⟩] State.reset = (State.reset, some .invalidOperand) ∧
    (loadProgram [⟨0, 0, 0, 0⟩, ⟨16, 0, 0, 0⟩] (launch 1 [])).2 = some .programTooLarge ∧
    (loadProgram [] (running [] 3)).2 = some .notReady := by decide

/-- Vectors H4 and H5: any opcode and any register field loads. -/
theorem test_load_accepted :
    (loadProgram [⟨15, 15, 15, 15⟩, ⟨0, 9, 9, 0⟩] State.reset).1.mem = [(0, 0xFFFF), (1, 0x0990)] := by decide

/-- Rule R144: registers as signed integers, cells in order. -/
theorem test_snapshot :
    (snapshot (running [] 3)).registers = [1, 5, 3, 10, -32768, 32767, 0, -1] ∧
    (snapshot (launch 2 [(1, 7)])).memory = [0, 7] := by decide

/-- Rule R171. -/
theorem test_codes :
    EngineState.faulted.code = 3 ∧ StopReason.outOfBounds.code = 4 ∧ StopReason.exit.code = 1 := by decide

/-- Outside the states a run reaches: a fetch past memory stops by name. -/
theorem test_fetch_past_memory : step (running [] 32) = .fault .fetchOutOfBounds := rfl

/-! ## Witnesses: for each statement with hypotheses, a state and operands that meet them -/

theorem witness_EncodeTupleChecksEveryField :
    ((0 : Int) ≤ 15 ∧ (15 : Int) ≤ 15) ∧ encodeTuple ⟨15, 0, 15, 0⟩ = .ok 0xF0F0 ∧
    (15 : Int) < 16 ∧ encodeTuple ⟨0, 0, 0, 16⟩ = .error .invalidOperand ∧
    (-1 : Int) < 0 ∧ encodeTuple ⟨-1, 0, 0, 0⟩ = .error .invalidOperand := by decide

theorem witness_TupleRoundTrip : encodeTuple ⟨4, 10, 11, 12⟩ = .ok 0x4ABC := by decide

theorem witness_DecodeIffEncode :
    OpcodeMap.Distinct ⟨15, 3, 7, 0, 1⟩ ∧ decode ⟨8, true, ⟨15, 3, 7, 0, 1⟩⟩ 0x1234 = .ok (.exit 2 3 4) := by decide

theorem witness_RecognisedOpcodesDecode :
    Recognised Config.vectors 4 ∧ ¬ Recognised Config.vectors (decodeFields 0x5000).opcode := by decide

theorem witness_AddWritesWrappedSum :
    (running [(9, 0x0770)] 9).CanStep ∧ (7 : Nibble).toNat < 8 ∧ (0 : Nibble).toNat < 8 ∧
    (running [(9, 0x0180)] 9).pc < (running [(9, 0x0180)] 9).cfg.memSize ∧
    decode (running [(9, 0x0180)] 9).cfg ((running [(9, 0x0180)] 9).mem.read 9) = .ok (.add 1 8 0) ∧
    8 ≤ (8 : Nibble).toNat := by decide

theorem witness_SubWritesWrappedDifference :
    (running [(9, 0x1800)] 9).CanStep ∧ (7 : Nibble).toNat < 8 ∧ (0 : Nibble).toNat < 8 ∧
    (running [(9, 0x1800)] 9).pc < (running [(9, 0x1800)] 9).cfg.memSize ∧
    decode (running [(9, 0x1800)] 9).cfg ((running [(9, 0x1800)] 9).mem.read 9) = .ok (.sub 8 0 0) ∧
    8 ≤ (8 : Nibble).toNat := by decide

theorem witness_LoadCopiesCellToRegister :
    (launch 8 [(0, 0x2180)]).CanStep ∧ (7 : Nibble).toNat < 8 ∧ (7 : Nibble).toNat < (launch 8 [(0, 0x2180)]).cfg.memSize ∧
    (launch 8 [(0, 0x2180)]).pc < (launch 8 [(0, 0x2180)]).cfg.memSize ∧
    decode (launch 8 [(0, 0x2180)]).cfg ((launch 8 [(0, 0x2180)]).mem.read 0) = .ok (.load 1 8 0) ∧
    (launch 8 [(0, 0x2180)]).cfg.memSize ≤ (8 : Nibble).toNat := by decide

theorem witness_StoreCopiesRegisterToCell :
    (launch 8 [(0, 0x3180)]).CanStep ∧ (7 : Nibble).toNat < 8 ∧ effectiveAddress 7 < (launch 8 [(0, 0x3180)]).cfg.memSize ∧
    (launch 8 [(0, 0x3180)]).pc < (launch 8 [(0, 0x3180)]).cfg.memSize ∧
    decode (launch 8 [(0, 0x3180)]).cfg ((launch 8 [(0, 0x3180)]).mem.read 0) = .ok (.store 1 8 0) ∧
    (launch 8 [(0, 0x3180)]).cfg.memSize ≤ effectiveAddress 8 := by decide

theorem witness_ExitHalts : State.reset.CanStep ∧ State.reset.cfg.hasExit = true := by decide

theorem witness_ExitAbsentFaults :
    (withoutExit (launch 4 [(0, 0x4ABC)])).CanStep ∧ (withoutExit (launch 4 [(0, 0x4ABC)])).cfg.hasExit = false ∧
    (withoutExit (launch 4 [(0, 0x4ABC)])).cfg.opcodes.Distinct ∧
    (withoutExit (launch 4 [(0, 0x4ABC)])).pc < (withoutExit (launch 4 [(0, 0x4ABC)])).cfg.memSize ∧
    (withoutExit (launch 4 [(0, 0x4ABC)])).mem.read 0 = encode OpcodeMap.d1 (.exit 10 11 12) := by decide

theorem witness_UnrecognisedOpcodeFaults :
    (running [(31, 0x5000)] 31).CanStep ∧ (running [(31, 0x5000)] 31).pc < (running [(31, 0x5000)] 31).cfg.memSize ∧
    ¬ Recognised (running [(31, 0x5000)] 31).cfg
      (decodeFields ((running [(31, 0x5000)] 31).mem.read (running [(31, 0x5000)] 31).pc)).opcode := by decide

theorem witness_UnusedFieldsIgnored :
    (7 : Nibble).toNat < 8 ∧ (7 : Nibble).toNat < (launch 8 []).cfg.memSize ∧ (launch 8 []).cfg.hasExit = true := by decide

theorem witness_WrappedArithmeticIsModular :
    (-32768 ≤ signed 0x7FFE + signed 1 ∧ signed 0x7FFE + signed 1 ≤ 32767) ∧
    (-32768 ≤ signed 0x8001 - signed 1 ∧ signed 0x8001 - signed 1 ≤ 32767) := by decide

theorem witness_ArithmeticLaws : (7 : Nibble).toNat < 8 ∧ (0 : Nibble).toNat < 8 ∧ (7 : Nibble) ≠ 0 := by decide

theorem witness_StoreThenLoadMovesValue :
    (7 : Nibble).toNat < 8 ∧ (0 : Nibble).toNat < 8 ∧ (15 : Nibble).toNat < State.reset.cfg.memSize := by decide

theorem witness_StepRunsDecodedInstruction :
    (running [(31, 0x0120)] 31).CanStep ∧ (running [(31, 0x0120)] 31).pc < (running [(31, 0x0120)] 31).cfg.memSize ∧
    decode (running [(31, 0x0120)] 31).cfg ((running [(31, 0x0120)] 31).mem.read (running [(31, 0x0120)] 31).pc) =
      .ok (.add 1 2 0) := by decide

theorem witness_TerminalStateStays :
    ({ running [] 32 with state := .halted } : State).Terminal ∧
    ({ running [] 3 with state := .faulted } : State).Terminal := by decide

/-- Rows of the table: load in Ready; a non-terminal instruction inside memory and in the last cell. -/
theorem witness_TransitionTable_completing :
    (launch 32 [(0, 7)]).Inv ∧ (launch 32 [(0, 7)]).state = .ready ∧
    (running [(1, 0x0120)] 1).Inv ∧ (running [(1, 0x0120)] 1).CanStep ∧
    decode Config.vectors ((running [(1, 0x0120)] 1).mem.read 1) = .ok (.add 1 2 0) ∧ isExit (.add 1 2 0) = false ∧
    indexOutOfRange Config.vectors (.add 1 2 0) = false ∧ (running [(1, 0x0120)] 1).pc + 1 < 32 ∧
    (running [(31, 0x0120)] 31).Inv ∧ (running [(31, 0x0120)] 31).pc + 1 = 32 :=
  ⟨by decide, rfl, by decide, by decide, by decide, rfl, rfl, by decide, by decide, rfl⟩

/-- Rows of the table: EXIT; an unrecognised opcode; an index out of range; the two terminal states. -/
theorem witness_TransitionTable_stopping :
    (running [(31, 0x4000)] 31).Inv ∧ (running [(31, 0x4000)] 31).CanStep ∧
    decode Config.vectors ((running [(31, 0x4000)] 31).mem.read 31) = .ok (.exit 0 0 0) ∧ isExit (.exit 0 0 0) = true ∧
    (running [(31, 0x5000)] 31).Inv ∧
    decode Config.vectors ((running [(31, 0x5000)] 31).mem.read 31) = .error (.unrecognisedOpcode 5) ∧
    (running [(31, 0x0180)] 31).Inv ∧
    decode Config.vectors ((running [(31, 0x0180)] 31).mem.read 31) = .ok (.add 1 8 0) ∧
    indexOutOfRange Config.vectors (.add 1 8 0) = true ∧
    ({ running [] 32 with state := .halted, reason := .endOfMemory } : State).Inv ∧
    ({ running [(3, 0xF000)] 3 with state := .faulted, reason := .invalidOpcode, faultWord := 0xF000, faultPc := 3 } :
      State).Inv :=
  ⟨by decide, by decide, by decide, rfl, by decide, by decide, by decide, by decide, rfl, by decide, by decide⟩

theorem witness_PcAdvancesByOneOrStays :
    (∃ t, step (running [(31, 0x0120)] 31) = .next t ∧ t.state = .halted) ∧ (running [(31, 0x0120)] 31).CanStep ∧
    ∃ t, step { running [] 32 with state := .halted } = .next t ∧ ¬ t.CanStep :=
  ⟨⟨_, rfl, rfl⟩, by decide, ⟨_, rfl, by decide⟩⟩

theorem witness_EndOfMemoryExactlyPastLastCell :
    (launch 1 []).CanStep ∧ ∃ t, step (launch 1 []) = .next t ∧ t.pc = 1 := ⟨by decide, ⟨_, rfl, rfl⟩⟩

theorem witness_FaultsArePrecise :
    (running [(31, 0x0FF0)] 31).CanStep ∧ ∃ t, step (running [(31, 0x0FF0)] 31) = .next t ∧ t.state = .faulted :=
  ⟨by decide, ⟨_, rfl, rfl⟩⟩

theorem witness_HaltsKeepFaultRecord :
    (running [(31, 0x4000)] 31).CanStep ∧
    (∃ t, step (running [(31, 0x4000)] 31) = .next t ∧ t.state = .halted ∧ t.reason = .exit) ∧
    ∃ t, step (running [] 31) = .next t ∧ t.state = .halted ∧ t.reason = .endOfMemory :=
  ⟨by decide, ⟨_, rfl, rfl, rfl⟩, ⟨_, rfl, rfl, rfl⟩⟩

theorem witness_FaultCausesAndPriority :
    (running [(3, 0xF9F0)] 3).CanStep ∧
    (∃ t, step (running [(3, 0xF9F0)] 3) = .next t ∧ t.reason = .invalidOpcode) ∧
    ∃ t, step (running [(3, 0x0990)] 3) = .next t ∧ t.reason = .outOfBounds :=
  ⟨by decide, ⟨_, rfl, rfl⟩, ⟨_, rfl, rfl⟩⟩

theorem witness_StepAlwaysAnswers : (running [] 31).Inv := by decide

theorem witness_OnlyStoreWritesMemory :
    ∃ t, step (running [(3, 0x37F0)] 3) = .next t ∧ t.mem.read 15 ≠ (running [(3, 0x37F0)] 3).mem.read 15 :=
  ⟨_, rfl, by decide⟩

theorem witness_OnlyDestinationRegisterChanges :
    ∃ t, step (running [(3, 0x0770)] 3) = .next t ∧ t.x[7] ≠ (running [(3, 0x0770)] 3).x[7] := ⟨_, rfl, by decide⟩

theorem witness_HighCellsNeverWritten :
    (∃ t, steps 1 (running [(3, 0x37F0)] 3) = .next t) ∧ 16 ≤ 16 := ⟨⟨_, rfl⟩, le_refl _⟩

theorem witness_ConfigurationIsFixed : ∃ t, steps 1 (launch 1 []) = .next t := ⟨_, rfl⟩

theorem witness_CanonicalMemoryIsUnique : Memory.Wf [(1, 7), (20, 8)] ∧ Memory.Wf (Memory.write [(20, 8)] 1 7) ∧
    ∀ a, Memory.read [(1, 7), (20, 8)] a = Memory.read (Memory.write [(20, 8)] 1 7) a :=
  ⟨by decide, by decide, fun _ => rfl⟩

theorem witness_StoreSeenByNextFetch :
    (7 : Nibble).toNat < 8 ∧ (running [(14, 0x37F0)] 14).CanStep ∧
    (running [(14, 0x37F0)] 14).pc + 1 < (running [(14, 0x37F0)] 14).cfg.memSize ∧
    decode Config.vectors ((running [(14, 0x37F0)] 14).mem.read 14) = .ok (.store 7 15 0) ∧
    (15 : Nibble).toNat = (running [(14, 0x37F0)] 14).pc + 1 := by decide

theorem witness_StepKeepsInvariant : (running [(31, 0x37F0)] 31).Inv ∧ ∃ t, step (running [(31, 0x37F0)] 31) = .next t :=
  ⟨by decide, ⟨_, rfl⟩⟩

theorem witness_ResetMeetsInvariant : Config.WellFormed ⟨1, false, OpcodeMap.d1⟩ := by decide

theorem witness_LoadKeepsInvariant : (launch 4 [(3, 7)]).Inv := by decide

theorem witness_StepCountFromPcAndReason :
    ((launch 2 []).Inv ∧ (launch 2 []).state = .ready ∧ ∃ t, steps 1 (launch 2 []) = .next t ∧ t.reason = .none) ∧
    ((launch 1 []).Inv ∧ ∃ t, steps 1 (launch 1 []) = .next t ∧ t.reason = .endOfMemory) ∧
    ((launch 1 [(0, 0x4000)]).Inv ∧ ∃ t, steps 2 (launch 1 [(0, 0x4000)]) = .next t ∧ t.reason = .exit) :=
  ⟨⟨by decide, rfl, ⟨_, rfl, rfl⟩⟩, ⟨by decide, ⟨_, rfl, rfl⟩⟩, ⟨by decide, ⟨_, rfl, rfl⟩⟩⟩

theorem witness_EveryRunTerminates : (launch 2 [(1, 0x0800)]).Inv := by decide

theorem witness_RunIsTheLoop :
    (launch 1 []).Inv ∧ (launch 1 []).CanStep ∧ (launch 1 []).cfg.memSize ≤ 1 ∧ (∃ t, run (launch 1 []) = .next t) ∧
    ({ running [] 32 with state := .halted, reason := .endOfMemory } : State).Inv :=
  ⟨by decide, by decide, by decide, ⟨_, rfl⟩, by decide⟩

theorem witness_ZeroCellsClearR0 :
    (launch 16 []).cfg.opcodes = OpcodeMap.d1 ∧ (launch 16 []).CanStep ∧ (launch 16 []).pc + 16 ≤ (launch 16 []).cfg.memSize ∧
    ∀ k < 16, (launch 16 []).mem.read ((launch 16 []).pc + k) = 0 := by decide

theorem witness_LoadWritesProgram :
    (launch 2 []).state = .ready ∧ [(⟨15, 15, 15, 15⟩ : InstrTuple), ⟨0, 9, 9, 0⟩].length ≤ (launch 2 []).cfg.memSize ∧
    ∀ t ∈ [(⟨15, 15, 15, 15⟩ : InstrTuple), ⟨0, 9, 9, 0⟩], t.wellFormed = true := by decide

theorem witness_RefusedLoadChangesNothing :
    (running [] 3).state ≠ .ready ∧ (launch 1 []).state = .ready ∧
    (launch 1 []).cfg.memSize < [(⟨0, 0, 0, 0⟩ : InstrTuple), ⟨16, 0, 0, 0⟩].length ∧
    [(⟨16, 0, 0, 0⟩ : InstrTuple)].length ≤ (launch 1 []).cfg.memSize ∧
    ∃ t ∈ [(⟨16, 0, 0, 0⟩ : InstrTuple)], t.wellFormed = false := by decide

theorem witness_DataWordsAreLoadable :
    (launch 2 []).state = .ready ∧ [(0xFFFF : Word), 7].length ≤ (launch 2 []).cfg.memSize := by decide

end Sys2Proof.Tests
end

section
/-!
PROOFS. The statements of the codec family (30_encoding.md): the decoder and the packing read as natural numbers, the
host's check of a tuple, and from these the obligations O1, O2 and O3.
-/

namespace Sys2Proof

/-! ### The packed word and the decoded fields as numbers -/

/-- A field at bit `start` is the word shifted right and masked (rule R72). -/
theorem toNat_extractNibble (w : Word) (start : Nat) :
    (w.extractLsb' start 4).toNat = (w.toNat >>> start) &&& 0xF := by
  rw [BitVec.extractLsb'_toNat]
  exact (Nat.and_two_pow_sub_one_eq_mod _ 4).symm

theorem toNat_decodeFields_opcode (w : Word) : (decodeFields w).opcode.toNat = (w.toNat >>> 12) &&& 0xF :=
  toNat_extractNibble w 12

theorem toNat_decodeFields_op1 (w : Word) : (decodeFields w).op1.toNat = (w.toNat >>> 8) &&& 0xF :=
  toNat_extractNibble w 8

theorem toNat_decodeFields_op2 (w : Word) : (decodeFields w).op2.toNat = (w.toNat >>> 4) &&& 0xF :=
  toNat_extractNibble w 4

theorem toNat_decodeFields_op3 (w : Word) : (decodeFields w).op3.toNat = w.toNat &&& 0xF :=
  toNat_extractNibble w 0

theorem toNat_nibble_le (v : Nibble) : v.toNat ≤ 15 :=
  Nat.le_of_lt_succ v.isLt

/-- A field's bit `k` is the bit of the word at the field's place (rule R71). -/
theorem getLsbD_extractNibble (w : Word) (start : Nat) {k : Nat} (hk : k < 4) :
    (w.extractLsb' start 4).getLsbD k = w.getLsbD (start + k) := by
  simp [hk]

/-- A field widened to a word and moved at most 12 places left loses no bit. -/
theorem toNat_shiftNibble (v : Nibble) {n : Nat} (hn : n ≤ 12) :
    (v.setWidth 16 <<< n).toNat = v.toNat <<< n := by
  have hfit : v.toNat <<< n < 2 ^ 16 :=
    calc v.toNat <<< n < 2 ^ (4 + n) := by
          rw [Nat.shiftLeft_eq, Nat.pow_add]
          exact Nat.mul_lt_mul_of_pos_right v.isLt (Nat.two_pow_pos n)
      _ ≤ 2 ^ 16 := Nat.pow_le_pow_right (by decide) (by omega)
  rw [BitVec.toNat_shiftLeft, BitVec.toNat_setWidth_of_le (by decide), Nat.mod_eq_of_lt hfit]

/-- The packing of rule R71 on numbers. -/
theorem toNat_encodeFields (f : Fields) :
    (encodeFields f).toNat =
      (f.opcode.toNat <<< 12) ||| (f.op1.toNat <<< 8) ||| (f.op2.toNat <<< 4) ||| f.op3.toNat := by
  simp only [encodeFields, BitVec.toNat_or]
  rw [toNat_shiftNibble _ (by decide), toNat_shiftNibble _ (by decide), toNat_shiftNibble _ (by decide),
    BitVec.toNat_setWidth_of_le (by decide)]

/-! ### The host's check of a tuple (rule R74) -/

@[simp] theorem fitsNibble_iff (v : Int) : fitsNibble v = true ↔ 0 ≤ v ∧ v ≤ 15 :=
  decide_eq_true_iff

theorem InstrTuple.wellFormed_iff (t : InstrTuple) :
    t.wellFormed = true ↔
      (0 ≤ t.opcode ∧ t.opcode ≤ 15) ∧ (0 ≤ t.operand1 ∧ t.operand1 ≤ 15) ∧
      (0 ≤ t.operand2 ∧ t.operand2 ≤ 15) ∧ (0 ≤ t.operand3 ∧ t.operand3 ≤ 15) := by
  simp only [InstrTuple.wellFormed, Bool.and_eq_true, fitsNibble_iff, and_assoc]

/-- An integer in [0, 15] is kept by the 4-bit field it is put in. -/
theorem toNat_ofInt_of_fitsNibble {v : Int} (h : 0 ≤ v ∧ v ≤ 15) : (BitVec.ofInt 4 v).toNat = v.toNat := by
  rw [BitVec.toNat_ofInt]
  omega

theorem encodeTuple_of_wellFormed {t : InstrTuple} (h : t.wellFormed = true) :
    encodeTuple t = .ok (encodeFields
      ⟨BitVec.ofInt 4 t.opcode, BitVec.ofInt 4 t.operand1, BitVec.ofInt 4 t.operand2, BitVec.ofInt 4 t.operand3⟩) :=
  if_pos h

theorem encodeTuple_of_not_wellFormed {t : InstrTuple} (h : ¬ t.wellFormed = true) :
    encodeTuple t = .error .invalidOperand :=
  if_neg h

/-! ### The obligations -/

/-- Settles O3: the check is the range of the four fields, and fields in range are packed without loss. -/
theorem encodeTupleChecksEveryField : Obligations.EncodeTupleChecksEveryField := by
  intro a b c d
  constructor
  · intro h
    refine ⟨_, encodeTuple_of_wellFormed ((InstrTuple.wellFormed_iff _).2 h), ?_⟩
    obtain ⟨ha, hb, hc, hd⟩ := h
    rw [toNat_encodeFields, toNat_ofInt_of_fitsNibble ha, toNat_ofInt_of_fitsNibble hb,
      toNat_ofInt_of_fitsNibble hc, toNat_ofInt_of_fitsNibble hd]
  · intro hout
    refine encodeTuple_of_not_wellFormed fun hwf => ?_
    have hin := (InstrTuple.wellFormed_iff _).1 hwf
    dsimp only at hin
    omega

/-- Settles O1, field by field. -/
theorem decodeMasksAndShifts : Obligations.DecodeMasksAndShifts := fun w =>
  ⟨toNat_decodeFields_opcode w, toNat_decodeFields_op1 w, toNat_decodeFields_op2 w, toNat_decodeFields_op3 w,
    toNat_nibble_le _, toNat_nibble_le _, toNat_nibble_le _, toNat_nibble_le _⟩

/-- Settles O2: the bit positions are those of the extraction, and the packing identity is the number of the word that the
decoded fields encode to, which is the word itself. -/
theorem fieldPositionsAndPacking : Obligations.FieldPositionsAndPacking := by
  intro w
  refine ⟨fun k hk => getLsbD_extractNibble w 12 hk, fun k hk => getLsbD_extractNibble w 8 hk,
    fun k hk => getLsbD_extractNibble w 4 hk, fun k hk => ?_, ?_⟩
  · exact (getLsbD_extractNibble w 0 hk).trans (by rw [Nat.zero_add])
  · rw [← toNat_encodeFields, encodeFields_decodeFields]

end Sys2Proof
end

section
/-!
PROOFS. The statements of the execution cycle family (40_execution_cycle.md): the outcome of an instruction by its kind, the
equation of a step by what its word decodes to, a step's progress towards the end of memory, and from these the
obligations O22 and O40.
-/

namespace Sys2Proof

/-- A decoded instruction belongs to the configuration: EXIT only when `HAS_EXIT` (rule R6). -/
theorem wellFormed_of_decode {c : Config} {w : Word} {i : Instr} (h : decode c w = .ok i) : i.wellFormed c = true := by
  cases i with
  | add | sub | load | store => rfl
  | exit op1 op2 op3 =>
    unfold decode instrOfFields at h
    repeat' split at h
    all_goals cases h
    next hexit => exact hexit.1

end Sys2Proof

namespace Sys2Proof.Machine

/-! ### States that can step -/

theorem terminal_iff_not_canStep (s : State) : s.Terminal ↔ ¬ s.CanStep := by
  cases h : s.state <;> simp [State.Terminal, State.CanStep, h]

/-- Under the invariant, where a step has an effect there is a cell to fetch and no stop reason is set. -/
theorem inv_of_canStep {s : State} (hi : s.Inv) (hc : s.CanStep) : s.pc < s.cfg.memSize ∧ s.reason = .none := by
  obtain ⟨⟨hsize, -⟩, -, hready, hrunning, -, -⟩ := hi
  rcases hc with h | h
  · obtain ⟨hpc, hreason, -⟩ := hready h
    exact ⟨by omega, hreason⟩
  · obtain ⟨-, hpc, hreason, -⟩ := hrunning h
    exact ⟨hpc, hreason⟩

/-! ### An instruction's outcome by its kind (rule R94) -/

/-- The advance of a state that differs from `s` in registers and memory only. -/
theorem advanced_advance {s u : State} (hcfg : u.cfg = s.cfg) (hpc : u.pc = s.pc) (hreason : u.reason = s.reason)
    (hword : u.faultWord = s.faultWord) (hfpc : u.faultPc = s.faultPc) : Advanced s (advance u) := by
  rw [Advanced, ← hcfg, ← hpc, ← hreason, ← hword, ← hfpc]
  exact ⟨advance_cfg u, advance_pc u, advance_faultWord u, advance_faultPc u, advance_running, advance_endOfMemory⟩

/-- A non-terminal instruction with its indices in range completes. -/
theorem exec_completes {i : Instr} {s : State} (hx : isExit i = false) (hr : indexOutOfRange s.cfg i = false) :
    ∃ t, exec i s = .next t ∧ Advanced s t := by
  cases i with
  | add op1 op2 op3 =>
    have h := of_decide_eq_false hr
    exact ⟨_, execAdd_completes (by omega) (by omega), advanced_advance rfl rfl rfl rfl rfl⟩
  | sub op1 op2 op3 =>
    have h := of_decide_eq_false hr
    exact ⟨_, execSub_completes (by omega) (by omega), advanced_advance rfl rfl rfl rfl rfl⟩
  | load op1 op2 op3 =>
    have h := of_decide_eq_false hr
    exact ⟨_, execLoad_completes (by omega) (by omega), advanced_advance rfl rfl rfl rfl rfl⟩
  | store op1 op2 op3 =>
    have h := of_decide_eq_false hr
    exact ⟨_, execStore_completes (by omega) (by omega), advanced_advance rfl rfl rfl rfl rfl⟩
  | exit op1 op2 op3 => cases hx

/-- An instruction with an index out of range takes the fault. -/
theorem exec_outOfBounds {i : Instr} {s : State} (hr : indexOutOfRange s.cfg i = true) :
    exec i s = .next (raise .outOfBounds (encode s.cfg.opcodes i) s) := by
  cases i with
  | add op1 op2 op3 => exact execAdd_faults (of_decide_eq_true hr)
  | sub op1 op2 op3 => exact execSub_faults (of_decide_eq_true hr)
  | load op1 op2 op3 => exact execLoad_faults (of_decide_eq_true hr)
  | store op1 op2 op3 => exact execStore_faults (of_decide_eq_true hr)
  | exit op1 op2 op3 => cases hr

/-- EXIT, where the configuration has it, halts. -/
theorem exec_exit_halts {i : Instr} {s : State} (hx : isExit i = true) (hi : i.wellFormed s.cfg = true) :
    exec i s = .next (halt .exit s) := by
  cases i with
  | exit op1 op2 op3 => exact execExit_halts hi
  | add | sub | load | store => cases hx

/-! ### A step by what the word at `pc` decodes to (rules R91 to R93) -/

theorem step_of_decode_ok {s : State} {i : Instr} (hc : s.CanStep) (hp : s.pc < s.cfg.memSize)
    (hd : decode s.cfg (s.mem.read s.pc) = .ok i) : step s = exec i s := by
  rw [step_of_canStep hc hp, executeWord, hd]

theorem step_of_decode_error {s : State} {e : DecodeRejection} (hc : s.CanStep) (hp : s.pc < s.cfg.memSize)
    (hd : decode s.cfg (s.mem.read s.pc) = .error e) :
    step s = .next (raise .invalidOpcode (s.mem.read s.pc) s) := by
  rw [step_of_canStep hc hp, executeWord, hd]

/-- A load changes memory alone. -/
theorem loadProgram_eq_setMem (p : List InstrTuple) (s : State) :
    (loadProgram p s).1 = s.setMem (loadProgram p s).1.mem := by
  rcases loadProgram_cases p s with ⟨h, -⟩ | ⟨-, -, ws, -, h⟩
  · rw [h]
    rfl
  · rw [h]
    rfl

/-- Settles O22: each row of the table is the outcome of one kind of word, or of one host operation. -/
theorem transitionTable : Obligations.TransitionTable := by
  intro s hi
  refine ⟨⟨rfl, rfl, rfl⟩, fun p _ => loadProgram_eq_setMem p s, ?completes, ?exits, ?rejected, ?outOfRange, ?terminal⟩
  case completes =>
    intro hc i hd hx hr
    obtain ⟨hp, hreason⟩ := inv_of_canStep hi hc
    obtain ⟨t, ht, -, hpc, -, -, hrun, hend⟩ := exec_completes hx hr
    refine ⟨t, (step_of_decode_ok hc hp hd).trans ht, hpc, fun h => ?_, fun h => hend h.ge⟩
    rw [← hreason]
    exact hrun h
  case exits =>
    intro hc i hd hx
    have hexec := exec_exit_halts hx (wellFormed_of_decode hd)
    exact ⟨_, (step_of_decode_ok hc (inv_of_canStep hi hc).1 hd).trans hexec, rfl, rfl, rfl⟩
  case rejected =>
    intro hc e hd
    exact ⟨_, step_of_decode_error hc (inv_of_canStep hi hc).1 hd, rfl, rfl, rfl⟩
  case outOfRange =>
    intro hc i hd hr
    exact ⟨_, (step_of_decode_ok hc (inv_of_canStep hi hc).1 hd).trans (exec_outOfBounds hr), rfl, rfl, rfl⟩
  case terminal =>
    intro ht
    exact step_of_not_canStep ((terminal_iff_not_canStep s).1 ht)

/-! ### Progress of the run (rules R100, R101) -/

theorem Executed.cfg_eq {w : Word} {s t : State} (he : Executed w s t) : t.cfg = s.cfg := by
  cases he <;> simp

/-- An advance after which the engine may step again stays inside memory. -/
theorem pc_succ_lt_of_advance_canStep {s : State} (hc : (advance s).CanStep) : s.pc + 1 < s.cfg.memSize := by
  by_contra hend
  have hhalted := (advance_endOfMemory (Nat.not_lt.1 hend)).1
  exact (terminal_iff_not_canStep _).1 (.inl hhalted) hc

/-- An instruction after which the engine may step again took `pc` to the next cell of memory. -/
theorem Executed.pc_of_canStep {w : Word} {s t : State} (he : Executed w s t) (hc : t.CanStep) :
    t.pc = s.pc + 1 ∧ t.pc < s.cfg.memSize := by
  cases he with
  | wroteRegister r h v => exact ⟨advance_pc _, by simpa using pc_succ_lt_of_advance_canStep hc⟩
  | wroteCell a ha hr v => exact ⟨advance_pc _, by simpa using pc_succ_lt_of_advance_canStep hc⟩
  | exited h => exact absurd hc ((terminal_iff_not_canStep _).1 (.inl (halt_state _ _)))
  | faulted f => exact absurd hc ((terminal_iff_not_canStep _).1 (.inr (raise_state _ _ _)))

/-- A step inside memory answers a state that is terminal or one cell further on, still inside memory. -/
theorem step_progress {s : State} (hc : s.CanStep) (hp : s.pc < s.cfg.memSize) :
    ∃ t, step s = .next t ∧ t.cfg = s.cfg ∧ (t.CanStep → t.pc = s.pc + 1 ∧ t.pc < t.cfg.memSize) := by
  obtain ⟨t, ht, he⟩ := executeWord_cases (s.mem.read s.pc) s
  refine ⟨t, (step_of_canStep hc hp).trans ht, he.cfg_eq, fun htc => ?_⟩
  rw [he.cfg_eq]
  exact he.pc_of_canStep htc

theorem steps_of_not_canStep {s : State} (h : ¬ s.CanStep) (n : Nat) : steps n s = .next s := by
  induction n with
  | zero => rfl
  | succ n ih => rw [steps_succ_of_next (step_of_not_canStep h), ih]

/-- Where at most `n` cells are left to execute, every number of requests from `n` on ends in one and the same terminal
state. -/
theorem steps_reach_terminal (n : Nat) (s : State) (hin : s.CanStep → s.pc < s.cfg.memSize)
    (hleft : s.CanStep → s.cfg.memSize ≤ s.pc + n) : ∃ t, t.Terminal ∧ ∀ k, n ≤ k → steps k s = .next t := by
  induction n generalizing s with
  | zero =>
    have hc : ¬ s.CanStep := fun hc => Nat.not_lt.2 (hleft hc) (hin hc)
    exact ⟨s, (terminal_iff_not_canStep s).2 hc, fun k _ => steps_of_not_canStep hc k⟩
  | succ n ih =>
    by_cases hc : s.CanStep
    · obtain ⟨u, hu, hcfg, hnext⟩ := step_progress hc (hin hc)
      have huleft : u.CanStep → u.cfg.memSize ≤ u.pc + n := by
        intro huc
        have hsleft := hleft hc
        rw [hcfg, (hnext huc).1]
        omega
      obtain ⟨t, ht, hsteps⟩ := ih u (fun huc => (hnext huc).2) huleft
      refine ⟨t, ht, fun k hk => ?_⟩
      obtain ⟨k, rfl⟩ : ∃ j, k = j + 1 := ⟨k - 1, by omega⟩
      rw [steps_succ_of_next hu]
      exact hsteps k (by omega)
    · exact ⟨s, (terminal_iff_not_canStep s).2 hc, fun k _ => steps_of_not_canStep hc k⟩

/-- From a state of the invariant, `MEM_SIZE` requests or more all end in one terminal state. -/
theorem steps_memSize_reach_terminal {s : State} (hi : s.Inv) :
    ∃ t, t.Terminal ∧ ∀ k, s.cfg.memSize ≤ k → steps k s = .next t :=
  steps_reach_terminal s.cfg.memSize s (fun hc => (inv_of_canStep hi hc).1) fun _ => Nat.le_add_left _ _

theorem runResult_of_run {s t : State} (h : run s = .next t) : runResult s = .next (t.state, t.reason) := by
  rw [runResult, h]

/-- Settles O40: `MEM_SIZE` requests already end in a terminal state, so one request more is the same run, and its first
request is the loop's first step. -/
theorem runIsTheLoop : Obligations.RunIsTheLoop := by
  intro s hi
  obtain ⟨e, he, hsteps⟩ := steps_memSize_reach_terminal hi
  have hrun : run s = .next e := hsteps _ le_rfl
  refine ⟨?terminal, ?unroll, ?moreRequests, ?result⟩
  case terminal =>
    intro ht
    exact steps_of_not_canStep ((terminal_iff_not_canStep s).1 ht) _
  case unroll =>
    intro hc
    obtain ⟨t, ht, hcfg, -⟩ := step_progress hc (inv_of_canStep hi hc).1
    refine ⟨t, ht, ?_⟩
    calc run s = .next e := hrun
      _ = steps (s.cfg.memSize + 1) s := (hsteps _ (Nat.le_succ _)).symm
      _ = steps s.cfg.memSize t := steps_succ_of_next ht _
      _ = run t := by rw [run, hcfg]
  case moreRequests =>
    intro k hk
    rw [hsteps k hk, hrun]
  case result =>
    intro t ht
    have hte : e = t := Host.Outcome.next.inj (hrun.symm.trans ht)
    exact ⟨hte ▸ he, runResult_of_run ht, rfl, rfl⟩

end Sys2Proof.Machine
end

section
/-!
PROOFS. The statements of the arithmetic family (41_arithmetic.md): a completed register write with its frame, an index
fault taken by a step, and from these the obligations O9 and O10.
-/

namespace Sys2Proof.Machine

/-! ### What a register write and a fault leave behind -/

/-- `t` is `s` after an instruction that completed with `v` in register `r` and wrote nothing else (rules R94, R95). -/
def RegisterWritten (r : Nat) (h : r < 8) (v : Word) (s t : State) : Prop :=
  t.x[r] = v ∧ (∀ q (hq : q < 8), q ≠ r → t.x[q] = s.x[q]) ∧ (∀ a, t.mem.read a = s.mem.read a) ∧ Advanced s t

theorem registerWritten_advance (s : State) {r : Nat} (h : r < 8) (v : Word) :
    RegisterWritten r h v s (advance (s.setX (s.x.set r v h))) := by
  refine ⟨?written, fun q hq hne => ?otherRegister, fun a => ?cell, advanced_advance rfl rfl rfl rfl rfl⟩
  case written => simp
  case otherRegister => simpa using Vector.getElem_set_ne h hq hne.symm
  case cell => simp

theorem faultTaken_raise (f : FaultCause) (w : Word) (s : State) :
    FaultTaken (reasonOfFault f) w s (raise f w s) :=
  ⟨⟨raise_cfg f w s, raise_x f w s, raise_pc f w s, fun _ => rfl⟩, raise_state f w s, raise_reason f w s,
    raise_faultWord f w s, raise_faultPc f w s⟩

/-- A step on an instruction with an index out of range takes the fault on the word at `pc`, for that word is the
instruction's encoding (rules R162, R165). -/
theorem step_outOfBounds {s : State} {i : Instr} (hc : s.CanStep) (hp : s.pc < s.cfg.memSize)
    (hd : decode s.cfg (s.mem.read s.pc) = .ok i) (hr : indexOutOfRange s.cfg i = true) :
    ∃ t, step s = .next t ∧ FaultTaken .outOfBounds (s.mem.read s.pc) s t := by
  have hstep := (step_of_decode_ok hc hp hd).trans (exec_outOfBounds hr)
  rw [encode_of_decode hd] at hstep
  exact ⟨_, hstep, faultTaken_raise .outOfBounds _ s⟩

/-! ### The obligations -/

/-- Settles O9: with both indices in range ADD is one register write, with one out of range it is the index fault. -/
theorem addWritesWrappedSum : Obligations.AddWritesWrappedSum := by
  refine ⟨rfl, fun op1 op2 op3 s hc => ⟨encodeFields_append _, fun h1 h2 => ?inRange, fun hp hd hr => ?outOfRange⟩⟩
  case inRange => exact ⟨_, execAdd_completes h1 h2, registerWritten_advance s h1 _⟩
  case outOfRange => exact step_outOfBounds hc hp hd (decide_eq_true hr)

/-- Settles O10: with both indices in range SUB is one register write, with one out of range it is the index fault. -/
theorem subWritesWrappedDifference : Obligations.SubWritesWrappedDifference := by
  refine ⟨rfl, fun op1 op2 op3 s hc => ⟨encodeFields_append _, fun h1 h2 => ?inRange, fun hp hd hr => ?outOfRange⟩⟩
  case inRange => exact ⟨_, execSub_completes h1 h2, registerWritten_advance s h1 _⟩
  case outOfRange => exact step_outOfBounds hc hp hd (decide_eq_true hr)

end Sys2Proof.Machine
end

section
/-!
PROOFS. The statements of the load and store family (42_load_store.md): a completed cell write with its frame, and with
the arithmetic family's register write and index fault the obligations O11 and O12.
-/

namespace Sys2Proof.Machine

/-! ### What a cell write leaves behind -/

/-- `t` is `s` after an instruction that completed with `v` in cell `a` and wrote nothing else (rules R94, R95). -/
def CellWritten (a : Nat) (v : Word) (s t : State) : Prop :=
  t.mem.read a = v ∧ (∀ b, b ≠ a → t.mem.read b = s.mem.read b) ∧ t.x = s.x ∧ Advanced s t

theorem cellWritten_advance (s : State) (a : Nat) (v : Word) :
    CellWritten a v s (advance (s.setMem (s.mem.write a v))) := by
  refine ⟨?written, fun b hne => ?otherCell, advance_x _, advanced_advance rfl rfl rfl rfl rfl⟩
  case written => rw [advance_mem, State.setMem_mem, Memory.read_write, if_pos rfl]
  case otherCell => rw [advance_mem, State.setMem_mem, Memory.read_write, if_neg hne]

/-! ### The obligations -/

/-- Settles O11: with both indices in range LOAD is one register write, with one out of range it is the index fault. -/
theorem loadCopiesCellToRegister : Obligations.LoadCopiesCellToRegister := by
  refine ⟨rfl, fun op1 op2 op3 s hc => ⟨encodeFields_append _, fun h1 h2 => ?inRange, fun hp hd hr => ?outOfRange⟩⟩
  case inRange => exact ⟨_, execLoad_completes h1 h2, registerWritten_advance s h1 _⟩
  case outOfRange => exact step_outOfBounds hc hp hd (decide_eq_true hr)

/-- Settles O12: with both indices in range STORE is one cell write, with one out of range it is the index fault. -/
theorem storeCopiesRegisterToCell : Obligations.StoreCopiesRegisterToCell := by
  refine ⟨rfl, fun op1 op2 op3 s hc =>
    ⟨encodeFields_append _, fun h1 h2 => ?inRange, fun hp hd hr => ?outOfRange, rfl⟩⟩
  case inRange => exact ⟨_, execStore_completes h1 h2, cellWritten_advance s _ _⟩
  case outOfRange => exact step_outOfBounds hc hp hd (decide_eq_true hr)

end Sys2Proof.Machine
end

section
/-!
PROOFS. The statements of the EXIT and system family (43_exit_and_system.md): the decoder's rejection of an unrecognised
opcode, the recognised opcode numbers under decision D1, what a halt leaves behind, and from these the obligations O15
and O13.
-/

namespace Sys2Proof.Machine

/-! ### Recognised opcodes (rule R132) -/

/-- The opcode field alone decides that a word is rejected (rules R77, R78). -/
theorem decode_of_not_recognised {c : Config} {w : Word} (h : ¬ Recognised c (decodeFields w).opcode) :
    decode c w = .error (.unrecognisedOpcode (decodeFields w).opcode) := by
  obtain ⟨hadd, hsub, hload, hstore, hexit⟩ : _ ∧ _ ∧ _ ∧ _ ∧ _ := by simpa only [Recognised, not_or] using h
  rw [decode, instrOfFields, if_neg hadd, if_neg hsub, if_neg hload, if_neg hstore, if_neg hexit]

/-- Under decision D1 the recognised values are those below 5, and without EXIT those below 4. -/
theorem recognised_d1_iff (n : Nat) (hasExit : Bool) (op : Nibble) :
    Recognised ⟨n, hasExit, OpcodeMap.d1⟩ op ↔ op.toNat < if hasExit then 5 else 4 := by
  simp only [Recognised, OpcodeMap.d1, BitVec.toNat_eq, BitVec.reduceToNat]
  cases hasExit with
  | true =>
    simp only [true_and, if_true]
    omega
  | false =>
    simp only [Bool.false_eq_true, false_and, or_false, if_false]
    omega

/-! ### What a halt leaves behind (rules R98, R130) -/

theorem sameData_halt (c : HaltCause) (s : State) : SameData s (halt c s) :=
  ⟨halt_cfg c s, halt_x c s, halt_pc c s, fun _ => by rw [halt_mem]⟩

theorem step_of_terminal {s : State} (h : s.Terminal) : step s = .next s :=
  step_of_not_canStep ((terminal_iff_not_canStep s).1 h)

/-! ### The obligations -/

/-- Settles O15: the decoder rejects the word, and the step takes the fault of a rejected word. -/
theorem unrecognisedOpcodeFaults : Obligations.UnrecognisedOpcodeFaults := by
  refine ⟨fun s hc hp hop => ?faults, fun n op => ⟨?withExit, ?withoutExit⟩⟩
  case faults =>
    exact ⟨_, step_of_decode_error hc hp (decode_of_not_recognised hop), faultTaken_raise .invalidOpcode _ s⟩
  case withExit => exact (recognised_d1_iff n true op).not.trans Nat.not_lt
  case withoutExit => exact (recognised_d1_iff n false op).not.trans Nat.not_lt

/-- Settles O13: EXIT is the halt with reason Exit, which leaves a terminal state. -/
theorem exitHalts : Obligations.ExitHalts := by
  refine ⟨rfl, fun op1 op2 op3 s _ => ⟨encodeFields_append _, fun he => ?halts⟩⟩
  case halts =>
    have hterminal : (halt .exit s).Terminal := .inl (halt_state .exit s)
    exact ⟨_, execExit_halts he, sameData_halt .exit s, halt_state .exit s, halt_reason .exit s,
      halt_faultWord .exit s, halt_faultPc .exit s, step_of_terminal hterminal⟩

end Sys2Proof.Machine
end

section
/-!
PROOFS. The rest of the codec (30_encoding.md): tuples and instructions round-trip through words, the opcode field alone
decides what a word is, and from these the obligations O4, O5, O6, O7, O8 and O14.
-/

namespace Sys2Proof

/-! ### Tuples and words (rules R72, R74) -/

theorem natCast_toNat_ofInt_of_fitsNibble {v : Int} (h : 0 ≤ v ∧ v ≤ 15) : ((BitVec.ofInt 4 v).toNat : Int) = v := by
  rw [toNat_ofInt_of_fitsNibble h, Int.toNat_of_nonneg h.1]

/-- The tuple of four fields is well formed, and it is encoded as the packed word. -/
theorem encodeTuple_tuple (f : Fields) : encodeTuple f.tuple = .ok (encodeFields f) := by
  have hfits : ∀ v : Nibble, (0 : Int) ≤ v.toNat ∧ (v.toNat : Int) ≤ 15 := fun v => by
    have := toNat_nibble_le v
    omega
  have hwf : f.tuple.wellFormed = true :=
    (InstrTuple.wellFormed_iff _).2 ⟨hfits f.opcode, hfits f.op1, hfits f.op2, hfits f.op3⟩
  rw [encodeTuple_of_wellFormed hwf]
  simp [Fields.tuple]

theorem encodeTuple_decodeFields (w : Word) : encodeTuple (decodeFields w).tuple = .ok w := by
  rw [encodeTuple_tuple, encodeFields_decodeFields]

/-- A tuple that is encoded is well formed. -/
theorem wellFormed_of_encodeTuple {t : InstrTuple} {w : Word} (h : encodeTuple t = .ok w) : t.wellFormed = true := by
  by_contra hwf
  rw [encodeTuple_of_not_wellFormed hwf] at h
  cases h

/-- Settles O4: a tuple in range is kept by its 4-bit fields, and the packing loses none of them. -/
theorem tupleRoundTrip : Obligations.TupleRoundTrip := by
  refine ⟨fun t w h => ?_, encodeTuple_decodeFields⟩
  have hwf := wellFormed_of_encodeTuple h
  obtain ⟨hop, h1, h2, h3⟩ := (InstrTuple.wellFormed_iff t).1 hwf
  rw [encodeTuple_of_wellFormed hwf] at h
  cases h
  rw [decodeFields_encodeFields, Fields.tuple, natCast_toNat_ofInt_of_fitsNibble hop,
    natCast_toNat_ofInt_of_fitsNibble h1, natCast_toNat_ofInt_of_fitsNibble h2, natCast_toNat_ofInt_of_fitsNibble h3]

/-! ### Instructions and words (rules R6, R8, R77) -/

/-- With distinct opcode numbers the word of an instruction of the configuration decodes to it. -/
theorem decode_encode {c : Config} (hm : c.opcodes.Distinct) {i : Instr} (hi : i.wellFormed c = true) :
    decode c (encode c.opcodes i) = .ok i := by
  obtain ⟨n, hasExit, ⟨add, sub, load, store, exit⟩⟩ := c
  simp only [OpcodeMap.Distinct, List.nodup_cons, List.mem_cons, List.not_mem_nil, or_false, not_or] at hm
  obtain ⟨⟨hSubAdd, hLoadAdd, hStoreAdd, hExitAdd⟩, ⟨hLoadSub, hStoreSub, hExitSub⟩, ⟨hStoreLoad, hExitLoad⟩,
    hExitStore, -⟩ := hm
  rw [decode, encode, decodeFields_encodeFields]
  cases i with
  | add => simp [instrOfFields, Instr.fields]
  | sub => simp [instrOfFields, Instr.fields, Ne.symm hSubAdd]
  | load => simp [instrOfFields, Instr.fields, Ne.symm hLoadAdd, Ne.symm hLoadSub]
  | store => simp [instrOfFields, Instr.fields, Ne.symm hStoreAdd, Ne.symm hStoreSub, Ne.symm hStoreLoad]
  | exit =>
    have hexit : hasExit = true := hi
    simp [instrOfFields, Instr.fields, Ne.symm hExitAdd, Ne.symm hExitSub, Ne.symm hExitLoad, Ne.symm hExitStore, hexit]

/-- Settles O5: decoding keeps the word and gives instructions of the configuration alone; where the numbers are distinct
it finds each of them again. -/
theorem decodeIffEncode : Obligations.DecodeIffEncode := by
  intro c hm w i
  constructor
  · intro hd
    exact ⟨wellFormed_of_decode hd, encode_of_decode hd⟩
  · rintro ⟨hi, rfl⟩
    exact decode_encode hm hi

/-- Settles O7: seven words, each computed. -/
theorem tableWordsDecode : Obligations.TableWordsDecode := by
  unfold Obligations.TableWordsDecode
  decide

end Sys2Proof

namespace Sys2Proof.Machine

/-! ### The opcode field decides (rules R77, R78) -/

theorem exists_decode_of_recognised {c : Config} {w : Word} (h : Recognised c (decodeFields w).opcode) :
    ∃ i, decode c w = .ok i := by
  unfold decode instrOfFields
  split_ifs with hadd hsub hload hstore hexit
  case neg => exact absurd h (by simp [Recognised, hadd, hsub, hload, hstore, hexit])
  all_goals exact ⟨_, rfl⟩

theorem exists_decode_iff_recognised (c : Config) (w : Word) :
    (∃ i, decode c w = .ok i) ↔ Recognised c (decodeFields w).opcode := by
  refine ⟨fun ⟨i, hi⟩ => ?_, exists_decode_of_recognised⟩
  by_contra hop
  rw [decode_of_not_recognised hop] at hi
  cases hi

theorem exists_rejection_iff_not_recognised (c : Config) (w : Word) :
    (∃ e, decode c w = .error e) ↔ ¬ Recognised c (decodeFields w).opcode := by
  refine ⟨fun ⟨e, he⟩ hop => ?_, fun hop => ⟨_, decode_of_not_recognised hop⟩⟩
  obtain ⟨i, hi⟩ := exists_decode_of_recognised hop
  rw [he] at hi
  cases hi

/-- Settles O6: the dispatch asks for nothing but the opcode field. -/
theorem recognisedOpcodesDecode : Obligations.RecognisedOpcodesDecode := fun c w =>
  ⟨exists_decode_iff_recognised c w, decode_of_not_recognised⟩

/-- The opcode field is the word's most significant hexadecimal digit, so it orders words before all other fields. -/
theorem le_toNat_opcode_iff (w : Word) (k : Nat) : k ≤ (decodeFields w).opcode.toNat ↔ k * 0x1000 ≤ w.toNat := by
  have hw := w.isLt
  rw [decodeFields, BitVec.extractLsb'_toNat, Nat.shiftRight_eq_div_pow]
  omega

/-- Settles O8: rejected are the words whose opcode is not below the count of recognised numbers. -/
theorem illegalWordsUnderD1 : Obligations.IllegalWordsUnderD1 := by
  intro n w
  have hrejected (hasExit : Bool) :
      (∃ e, decode ⟨n, hasExit, OpcodeMap.d1⟩ w = .error e) ↔ (if hasExit then 5 else 4) * 0x1000 ≤ w.toNat := by
    rw [exists_rejection_iff_not_recognised, recognised_d1_iff, Nat.not_lt, le_toNat_opcode_iff]
  exact ⟨hrejected true, hrejected false⟩

/-! ### EXIT absent (rules R6, R132) -/

/-- Without HAS_EXIT the number of EXIT is not recognised, for it is none of the other four. -/
theorem not_recognised_exit {c : Config} (hm : c.opcodes.Distinct) (he : c.hasExit = false) :
    ¬ Recognised c c.opcodes.exit := by
  simp only [OpcodeMap.Distinct, List.nodup_cons, List.mem_cons, List.not_mem_nil, or_false, not_or] at hm
  obtain ⟨⟨-, -, -, hadd⟩, ⟨-, -, hsub⟩, ⟨-, hload⟩, hstore, -⟩ := hm
  simp [Recognised, he, Ne.symm hadd, Ne.symm hsub, Ne.symm hload, Ne.symm hstore]

/-- Settles O14: decoding gives only instructions of the configuration, and the number of EXIT is not recognised in it. -/
theorem exitAbsentFaults : Obligations.ExitAbsentFaults := by
  intro op1 op2 op3 s hc he
  refine ⟨fun w hd => ?neverDecoded, fun hm hp hw => ?stepFaults, ?execFaults⟩
  case neverDecoded =>
    have hexit : s.cfg.hasExit = true := wellFormed_of_decode hd
    rw [he] at hexit
    cases hexit
  case stepFaults =>
    have hop : ¬ Recognised s.cfg (decodeFields (s.mem.read s.pc)).opcode := by
      rw [hw, encode, decodeFields_encodeFields]
      exact not_recognised_exit hm he
    exact ⟨_, step_of_decode_error hc hp (decode_of_not_recognised hop), faultTaken_raise .invalidOpcode _ s⟩
  case execFaults => exact ⟨_, execExit_faults he, faultTaken_raise .invalidOpcode _ s⟩

end Sys2Proof.Machine
end

section
/-!
PROOFS. What a step from Ready or Running answers, by the kind of the word at `pc` (`step_answered`), the invariant in
each engine state, and from these the obligations O35, O20, O21, O23 to O30, O34, O36 and O37.
-/

namespace Sys2Proof.Machine

/-! ### The advance -/

/-- An advance runs on inside memory or halts past its last cell. -/
theorem Advanced.runs_or_halts {s t : State} (ha : Advanced s t) :
    (s.pc + 1 < s.cfg.memSize ∧ t.state = .running ∧ t.reason = s.reason) ∨
    (s.cfg.memSize ≤ s.pc + 1 ∧ t.state = .halted ∧ t.reason = .endOfMemory) := by
  obtain ⟨-, -, -, -, hrun, hend⟩ := ha
  rcases Nat.lt_or_ge (s.pc + 1) s.cfg.memSize with h | h
  · exact .inl ⟨h, hrun h⟩
  · exact .inr ⟨h, hend h⟩

theorem Advanced.cfg_eq {s t : State} (ha : Advanced s t) : t.cfg = s.cfg := ha.1

theorem Advanced.pc_eq {s t : State} (ha : Advanced s t) : t.pc = s.pc + 1 := ha.2.1

theorem Advanced.faultRecord_eq {s t : State} (ha : Advanced s t) :
    t.faultWord = s.faultWord ∧ t.faultPc = s.faultPc := by
  obtain ⟨-, -, hword, hpc, -⟩ := ha
  exact ⟨hword, hpc⟩

/-- The engine can step again after an advance inside memory. -/
theorem Advanced.canStep {s t : State} (ha : Advanced s t) (h : s.pc + 1 < s.cfg.memSize) : t.CanStep := by
  obtain ⟨-, -, -, -, hrun, -⟩ := ha
  exact .inr (hrun h).1

theorem Advanced.not_faulted {s t : State} (ha : Advanced s t) : t.state ≠ .faulted := by
  rcases ha.runs_or_halts with ⟨-, h, -⟩ | ⟨-, h, -⟩ <;> simp [h]

theorem Advanced.halted_endOfMemory {s t : State} (ha : Advanced s t) (h : t.state = .halted) :
    t.reason = .endOfMemory := by
  rcases ha.runs_or_halts with ⟨-, hrunning, -⟩ | ⟨-, -, hreason⟩
  · rw [h] at hrunning
    cases hrunning
  · exact hreason

/-! ### What a step answers, by the word at `pc` -/

/-- `t` is what a step from `s` in Ready or Running answers, by the word at `pc`: an instruction completed, EXIT, an
instruction with an index out of range, or no instruction. -/
inductive Answered (s : State) : State → Prop where
  | completed {t : State} (i : Instr) (hd : decode s.cfg (s.mem.read s.pc) = .ok i) (hx : isExit i = false)
      (hr : indexOutOfRange s.cfg i = false) (ht : exec i s = .next t) (ha : Advanced s t) : Answered s t
  | exited (i : Instr) (hd : decode s.cfg (s.mem.read s.pc) = .ok i) (hx : isExit i = true) :
      Answered s (halt .exit s)
  | outOfBounds (i : Instr) (hd : decode s.cfg (s.mem.read s.pc) = .ok i) (hr : indexOutOfRange s.cfg i = true) :
      Answered s (raise .outOfBounds (s.mem.read s.pc) s)
  | rejected (e : DecodeRejection) (hd : decode s.cfg (s.mem.read s.pc) = .error e) :
      Answered s (raise .invalidOpcode (s.mem.read s.pc) s)

theorem pc_lt_of_step {s t : State} (hc : s.CanStep) (h : step s = .next t) : s.pc < s.cfg.memSize := by
  by_contra hp
  rw [step_of_outside hc (Nat.not_lt.1 hp)] at h
  cases h

/-- EXIT uses no index. -/
theorem indexOutOfRange_of_isExit {c : Config} {i : Instr} (hx : isExit i = true) : indexOutOfRange c i = false := by
  cases i with
  | exit => rfl
  | add | sub | load | store => cases hx

/-- The inversion of a step by the word at `pc`. -/
theorem step_answered {s t : State} (hc : s.CanStep) (h : step s = .next t) : Answered s t := by
  have hp := pc_lt_of_step hc h
  cases hd : decode s.cfg (s.mem.read s.pc) with
  | error e =>
    rw [step_of_decode_error hc hp hd] at h
    cases h
    exact .rejected e hd
  | ok i =>
    rw [step_of_decode_ok hc hp hd] at h
    cases hr : indexOutOfRange s.cfg i with
    | true =>
      rw [exec_outOfBounds hr, encode_of_decode hd] at h
      cases h
      exact .outOfBounds i hd hr
    | false =>
      cases hx : isExit i with
      | true =>
        rw [exec_exit_halts hx (wellFormed_of_decode hd)] at h
        cases h
        exact .exited i hd hx
      | false =>
        obtain ⟨u, hu, ha⟩ := exec_completes hx hr
        obtain rfl : u = t := Host.Outcome.next.inj (hu.symm.trans h)
        exact .completed i hd hx hr hu ha

/-- What a completed instruction wrote: ADD, SUB and LOAD the register `op1`, STORE the cell `op2`. -/
theorem exec_writes {i : Instr} {s t : State} (hx : isExit i = false) (hr : indexOutOfRange s.cfg i = false)
    (ht : exec i s = .next t) :
    (∃ op1 op2 op3, (i = .add op1 op2 op3 ∨ i = .sub op1 op2 op3 ∨ i = .load op1 op2 op3) ∧
      ∃ h1 v, RegisterWritten op1.toNat h1 v s t) ∨
    (∃ op1 op2 op3, ∃ h1 : op1.toNat < 8, i = .store op1 op2 op3 ∧
      CellWritten (effectiveAddress op2) s.x[op1.toNat] s t) := by
  cases i with
  | add op1 op2 op3 =>
    obtain ⟨h1, h2⟩ := not_or.1 (of_decide_eq_false hr)
    cases (execAdd_completes (Nat.not_le.1 h1) (Nat.not_le.1 h2)).symm.trans ht
    exact .inl ⟨op1, op2, op3, .inl rfl, _, _, registerWritten_advance s _ _⟩
  | sub op1 op2 op3 =>
    obtain ⟨h1, h2⟩ := not_or.1 (of_decide_eq_false hr)
    cases (execSub_completes (Nat.not_le.1 h1) (Nat.not_le.1 h2)).symm.trans ht
    exact .inl ⟨op1, op2, op3, .inr (.inl rfl), _, _, registerWritten_advance s _ _⟩
  | load op1 op2 op3 =>
    obtain ⟨h1, h2⟩ := not_or.1 (of_decide_eq_false hr)
    cases (execLoad_completes (Nat.not_le.1 h1) (Nat.not_le.1 h2)).symm.trans ht
    exact .inl ⟨op1, op2, op3, .inr (.inr rfl), _, _, registerWritten_advance s _ _⟩
  | store op1 op2 op3 =>
    obtain ⟨h1, h2⟩ := not_or.1 (of_decide_eq_false hr)
    cases (execStore_completes (Nat.not_le.1 h1) (Nat.not_le.1 h2)).symm.trans ht
    exact .inr ⟨op1, op2, op3, Nat.not_le.1 h1, rfl, cellWritten_advance s _ _⟩
  | exit => cases hx

/-! ### The invariant (10_state.md section 7) -/

section
variable {s : State} (hcfg : s.cfg.WellFormed) (hmem : s.MemoryOk)
include hcfg hmem

theorem inv_of_ready (h : s.state = .ready) (hs : s.pc = 0 ∧ s.reason = .none ∧ s.faultWord = 0 ∧ s.faultPc = 0) :
    s.Inv :=
  ⟨hcfg, hmem, fun _ => hs, by simp [h], by simp [h], by simp [h]⟩

theorem inv_of_running (h : s.state = .running)
    (hs : 1 ≤ s.pc ∧ s.pc < s.cfg.memSize ∧ s.reason = .none ∧ s.faultWord = 0 ∧ s.faultPc = 0) : s.Inv :=
  ⟨hcfg, hmem, by simp [h], fun _ => hs, by simp [h], by simp [h]⟩

theorem inv_of_halted (h : s.state = .halted)
    (hs : (s.reason = .exit ∧ s.cfg.hasExit = true ∧ s.pc < s.cfg.memSize) ∨
      (s.reason = .endOfMemory ∧ s.pc = s.cfg.memSize)) (hrecord : s.faultWord = 0 ∧ s.faultPc = 0) : s.Inv :=
  ⟨hcfg, hmem, by simp [h], by simp [h], fun _ => ⟨hs, hrecord⟩, by simp [h]⟩

theorem inv_of_faulted (h : s.state = .faulted)
    (hs : (s.reason = .invalidOpcode ∨ s.reason = .outOfBounds) ∧
      s.pc < s.cfg.memSize ∧ s.faultPc = s.pc ∧ s.faultWord = s.mem.read s.pc) : s.Inv :=
  ⟨hcfg, hmem, by simp [h], by simp [h], by simp [h], fun _ => hs⟩

end

theorem State.Inv.cfg_wellFormed {s : State} (hi : s.Inv) : s.cfg.WellFormed := hi.1

theorem State.Inv.memoryOk {s : State} (hi : s.Inv) : s.MemoryOk := hi.2.1

theorem State.Inv.readyOk {s : State} (hi : s.Inv) : s.ReadyOk := hi.2.2.1

/-- Before a stop the fault record is clear. -/
theorem faultRecord_of_canStep {s : State} (hi : s.Inv) (hc : s.CanStep) : s.faultWord = 0 ∧ s.faultPc = 0 := by
  obtain ⟨-, -, hready, hrunning, -, -⟩ := hi
  rcases hc with h | h
  · exact (hready h).2.2
  · exact (hrunning h).2.2.2

/-- An instruction lists only cells that exist. -/
theorem Executed.memoryOk {w : Word} {s t : State} (he : Executed w s t) (hm : s.MemoryOk) : t.MemoryOk := by
  cases he with
  | wroteRegister r h v => simpa [State.MemoryOk] using hm
  | exited h => simpa [State.MemoryOk] using hm
  | faulted f => simpa [State.MemoryOk] using hm
  | wroteCell a ha hr v =>
    simp only [State.MemoryOk, advance_mem, advance_cfg, State.setMem_mem, State.setMem_cfg]
    refine ⟨Memory.wf_write hm.1 a v, fun c hc => ?_⟩
    rcases Memory.mem_write _ _ _ _ hc with rfl | hc
    · exact ha
    · exact hm.2 c hc

theorem step_keeps_memoryOk {s t : State} (hm : s.MemoryOk) (h : step s = .next t) : t.MemoryOk := by
  rcases step_cases h with ⟨-, rfl⟩ | ⟨-, -, he⟩
  · exact hm
  · exact he.memoryOk hm

theorem step_keeps_cfg {s t : State} (h : step s = .next t) : t.cfg = s.cfg := by
  rcases step_cases h with ⟨-, rfl⟩ | ⟨-, -, he⟩
  · rfl
  · exact he.cfg_eq

/-- An advance inside the invariant leads to Running inside memory or to the end of memory, with the record clear. -/
theorem Advanced.inv {s t : State} (ha : Advanced s t) (hi : s.Inv) (hc : s.CanStep) (hm : t.MemoryOk) : t.Inv := by
  obtain ⟨hp, hreason⟩ := inv_of_canStep hi hc
  have hcfg : t.cfg.WellFormed := ha.cfg_eq ▸ hi.cfg_wellFormed
  have hrecord : t.faultWord = 0 ∧ t.faultPc = 0 := by
    rw [ha.faultRecord_eq.1, ha.faultRecord_eq.2]
    exact faultRecord_of_canStep hi hc
  rcases ha.runs_or_halts with ⟨hlt, hstate, hr⟩ | ⟨hge, hstate, hr⟩
  · refine inv_of_running hcfg hm hstate ⟨?_, ?_, hr.trans hreason, hrecord⟩
    · rw [ha.pc_eq]
      omega
    · rwa [ha.pc_eq, ha.cfg_eq]
  · refine inv_of_halted hcfg hm hstate (.inr ⟨hr, ?_⟩) hrecord
    rw [ha.pc_eq, ha.cfg_eq]
    omega

/-- The two faults of a step, both recorded with the word at `pc`. -/
theorem raise_inv {s : State} (hi : s.Inv) (hc : s.CanStep) (f : FaultCause) : (raise f (s.mem.read s.pc) s).Inv := by
  refine inv_of_faulted hi.cfg_wellFormed hi.memoryOk rfl ⟨?_, (inv_of_canStep hi hc).1, rfl, rfl⟩
  cases f with
  | invalidOpcode => exact .inl rfl
  | outOfBounds => exact .inr rfl

theorem halt_exit_inv {s : State} (hi : s.Inv) (hc : s.CanStep) (he : s.cfg.hasExit = true) : (halt .exit s).Inv := by
  have hrecord := faultRecord_of_canStep hi hc
  exact inv_of_halted hi.cfg_wellFormed hi.memoryOk rfl (.inl ⟨rfl, he, (inv_of_canStep hi hc).1⟩) hrecord

/-- EXIT is decoded only where the configuration has it. -/
theorem hasExit_of_decode {c : Config} {w : Word} {i : Instr} (hd : decode c w = .ok i) (hx : isExit i = true) :
    c.hasExit = true := by
  cases i with
  | exit => exact wellFormed_of_decode hd
  | add | sub | load | store => cases hx

/-- Settles O35: memory is kept canonical by every write, and each kind of answer meets the invariant of the engine state
it leads to. -/
theorem stepKeepsInvariant : Obligations.StepKeepsInvariant := by
  intro s t hi h
  by_cases hc : s.CanStep
  · have hm := step_keeps_memoryOk hi.memoryOk h
    cases step_answered hc h with
    | completed i hd hx hr ht ha => exact ha.inv hi hc hm
    | exited i hd hx => exact halt_exit_inv hi hc (hasExit_of_decode hd hx)
    | outOfBounds i hd hr => exact raise_inv hi hc _
    | rejected e hd => exact raise_inv hi hc _
  · obtain rfl : s = t := Host.Outcome.next.inj ((step_of_not_canStep hc).symm.trans h)
    exact hi

theorem resetOf_inv {c : Config} (hc : c.WellFormed) : (State.resetOf c).Inv :=
  inv_of_ready hc ⟨Memory.wf_nil, by simp [State.resetOf]⟩ rfl ⟨rfl, rfl, rfl, rfl⟩

/-- Settles O36: after reset memory lists no cell and every status register is clear. -/
theorem resetMeetsInvariant : Obligations.ResetMeetsInvariant :=
  ⟨fun _ hc => resetOf_inv hc, resetOf_inv (by decide)⟩

/-- Settles O37: an accepted load comes in Ready and lists cells below the length of the program, which fits. -/
theorem loadKeepsInvariant : Obligations.LoadKeepsInvariant := by
  intro p s hi
  rcases loadProgram_cases p s with ⟨h, -⟩ | ⟨hstate, hfits, ws, hws, h⟩
  · rwa [h]
  · obtain ⟨hcfg, ⟨hwf, hlisted⟩, hready, -⟩ := hi
    rw [h]
    refine inv_of_ready hcfg ⟨Memory.wf_writeFrom hwf 0 ws, fun c hc => ?_⟩ hstate (hready hstate)
    rcases Memory.mem_writeFrom _ _ _ _ hc with ⟨-, hlt⟩ | hc
    · rw [encodeProgram_length hws, Nat.zero_add] at hlt
      exact Nat.lt_of_lt_of_le hlt hfits
    · exact hlisted c hc

/-! ### pc, halts and faults (10_state.md section 3, 60_exceptions.md) -/

/-- Settles O20, an equation of the step. -/
theorem stepRunsDecodedInstruction : Obligations.StepRunsDecodedInstruction := fun _ _ => step_of_decode_ok

/-- Settles O21: a terminal state cannot step, and requests keep such a state. -/
theorem terminalStateStays : Obligations.TerminalStateStays := fun s ht =>
  steps_of_not_canStep ((terminal_iff_not_canStep s).1 ht)

/-- Settles O23: only a completed instruction advances, and its advance runs on or ends memory. -/
theorem pcAdvancesByOneOrStays : Obligations.PcAdvancesByOneOrStays := by
  intro s t h
  constructor
  · intro hc
    cases step_answered hc h with
    | completed i hd hx hr ht ha =>
      refine .inl ⟨ha.pc_eq, ?_⟩
      rcases ha.runs_or_halts with ⟨-, hrunning, -⟩ | ⟨-, hhalted⟩
      · exact .inl hrunning
      · exact .inr hhalted
    | exited i hd hx => exact .inr ⟨rfl, .inl rfl, by simp [reasonOfHalt]⟩
    | outOfBounds i hd hr => exact .inr ⟨rfl, .inr rfl, by simp [reasonOfFault]⟩
    | rejected e hd => exact .inr ⟨rfl, .inr rfl, by simp [reasonOfFault]⟩
  · intro hc
    rcases step_cases h with ⟨-, rfl⟩ | ⟨hc', -⟩
    · rfl
    · exact absurd hc' hc

/-- Settles O24: `pc` was inside memory, so the only way to MEM_SIZE is the advance past the last cell. -/
theorem endOfMemoryExactlyPastLastCell : Obligations.EndOfMemoryExactlyPastLastCell := by
  intro s t hc h
  have hp := pc_lt_of_step hc h
  rcases (pcAdvancesByOneOrStays s t h).1 hc with ⟨hpc, -⟩ | ⟨hpc, -, hreason⟩
  · cases step_answered hc h with
    | completed i hd hx hr ht ha =>
      rcases ha.runs_or_halts with ⟨hlt, hstate, -⟩ | ⟨hge, hend⟩
      · exact ⟨⟨fun hend => by simp [hstate] at hend, by omega⟩, by omega⟩
      · exact ⟨⟨fun _ => by omega, fun _ => hend⟩, by omega⟩
    | exited | outOfBounds | rejected => simp at hpc
  · exact ⟨⟨fun hend => absurd hend.2 hreason, by omega⟩, by omega⟩

/-- Settles O25: a completed instruction never ends Faulted, and neither does EXIT. -/
theorem faultsArePrecise : Obligations.FaultsArePrecise := by
  intro s t hc h hf
  cases step_answered hc h with
  | completed i hd hx hr ht ha => exact absurd hf ha.not_faulted
  | exited i hd hx => simp at hf
  | outOfBounds i hd hr => exact ⟨.inr rfl, faultTaken_raise .outOfBounds _ s⟩
  | rejected e hd => exact ⟨.inl rfl, faultTaken_raise .invalidOpcode _ s⟩

/-- Settles O26: the two halts are the advance past the last cell and EXIT. -/
theorem haltsKeepFaultRecord : Obligations.HaltsKeepFaultRecord := by
  intro s t hc h hh
  cases step_answered hc h with
  | completed i hd hx hr ht ha =>
    exact ⟨ha.faultRecord_eq.1, ha.faultRecord_eq.2, .inr ⟨ha.halted_endOfMemory hh, ha.pc_eq⟩⟩
  | exited i hd hx => exact ⟨rfl, rfl, .inl ⟨rfl, sameData_halt .exit s⟩⟩
  | outOfBounds i hd hr => simp at hh
  | rejected e hd => simp at hh

/-- A step faults with InvalidOpcode exactly if the decoder rejects the word at `pc`. -/
theorem invalidOpcode_iff_rejected {s t : State} (hc : s.CanStep) (h : step s = .next t) :
    (t.state = .faulted ∧ t.reason = .invalidOpcode) ↔ ∃ e, decode s.cfg (s.mem.read s.pc) = .error e := by
  cases step_answered hc h with
  | completed i hd hx hr ht ha => simp [ha.not_faulted, hd]
  | exited i hd hx => simp [hd]
  | outOfBounds i hd hr => simp [reasonOfFault, hd]
  | rejected e hd => simp [reasonOfFault, hd]

/-- A step faults with OutOfBounds exactly if the word at `pc` is an instruction with an index out of range. -/
theorem outOfBounds_iff_indexOutOfRange {s t : State} (hc : s.CanStep) (h : step s = .next t) :
    (t.state = .faulted ∧ t.reason = .outOfBounds) ↔
      ∃ i, decode s.cfg (s.mem.read s.pc) = .ok i ∧ indexOutOfRange s.cfg i = true := by
  cases step_answered hc h with
  | completed i hd hx hr ht ha => simp [ha.not_faulted, hd, hr]
  | exited i hd hx => simp [hd, indexOutOfRange_of_isExit hx]
  | outOfBounds i hd hr => simp [reasonOfFault, hd, hr]
  | rejected e hd => simp [reasonOfFault, hd]

/-- Settles O27: the decoder rejects exactly the unrecognised opcodes, and only then is no index examined. -/
theorem faultCausesAndPriority : Obligations.FaultCausesAndPriority := fun _ _ hc h =>
  ⟨(invalidOpcode_iff_rejected hc h).trans (exists_rejection_iff_not_recognised _ _),
    outOfBounds_iff_indexOutOfRange hc h⟩

/-- Settles O28: a fetch inside memory always gives a word, and executing a word always answers. -/
theorem stepAlwaysAnswers : Obligations.StepAlwaysAnswers := by
  have hanswers : ∀ s : State, (s.CanStep → s.pc < s.cfg.memSize) → ∃ t, step s = .next t := by
    intro s hp
    by_cases hc : s.CanStep
    · obtain ⟨t, ht, -⟩ := step_progress hc (hp hc)
      exact ⟨t, ht⟩
    · exact ⟨s, step_of_not_canStep hc⟩
  refine ⟨fun s => ?_, fun s hi => hanswers s fun hc => (inv_of_canStep hi hc).1⟩
  by_cases hout : s.CanStep ∧ s.cfg.memSize ≤ s.pc
  · exact .inr ⟨step_of_outside hout.1 hout.2, hout⟩
  · exact .inl (hanswers s fun hc => Nat.not_le.1 fun hp => hout ⟨hc, hp⟩)

/-! ### Who writes what (10_state.md section 2) -/

/-- A step that changes a register or a cell completed an instruction. -/
theorem completed_of_changed {s t : State} (h : step s = .next t)
    (hchanged : t.x ≠ s.x ∨ t.mem ≠ s.mem) :
    ∃ i, decode s.cfg (s.mem.read s.pc) = .ok i ∧ isExit i = false ∧ indexOutOfRange s.cfg i = false ∧
      exec i s = .next t := by
  by_cases hc : s.CanStep
  · cases step_answered hc h with
    | completed i hd hx hr ht ha => exact ⟨i, hd, hx, hr, ht⟩
    | exited | outOfBounds | rejected => simp at hchanged
  · rw [step_of_not_canStep hc] at h
    cases h
    simp at hchanged

/-- Settles O29: the step completed an instruction that writes a cell, which is STORE, and it wrote no other cell. -/
theorem onlyStoreWritesMemory : Obligations.OnlyStoreWritesMemory := by
  intro s t a h hne
  obtain ⟨i, hd, hx, hr, ht⟩ := completed_of_changed h (.inr fun hm => hne (by rw [hm]))
  rcases exec_writes hx hr ht with ⟨-, -, -, -, -, -, -, -, hcells, -⟩ | ⟨op1, op2, op3, h1, rfl, hv, hother, hxs, -⟩
  · exact absurd (hcells a) hne
  · obtain rfl : a = effectiveAddress op2 := by
      by_contra ha
      exact hne (hother a ha)
    exact ⟨op1, op2, op3, h1, hd, rfl, hv, hxs⟩

/-- Settles O30: the step completed an instruction that writes a register, and it wrote no register but `op1`. -/
theorem onlyDestinationRegisterChanges : Obligations.OnlyDestinationRegisterChanges := by
  intro s t r hlt h hne
  obtain ⟨i, hd, hx, hr, ht⟩ := completed_of_changed h (.inl fun hx => hne (by simp [hx]))
  rcases exec_writes hx hr ht with ⟨op1, op2, op3, hi, h1, v, -, hother, -⟩ | ⟨-, -, -, -, -, -, -, hxs, -⟩
  · have hop1 : op1.toNat = r := by
      by_contra hop1
      exact hne (hother r hlt (Ne.symm hop1))
    refine ⟨op1, op2, op3, hop1, ?_⟩
    rcases hi with rfl | rfl | rfl
    · exact .inl hd
    · exact .inr (.inl hd)
    · exact .inr (.inr hd)
  · exact absurd (by simp [hxs]) hne

/-- Settles O34: the STORE advances to the cell it wrote, still inside memory, and the next fetch reads it. -/
theorem storeSeenByNextFetch : Obligations.StoreSeenByNextFetch := by
  intro s op1 op2 op3 h1 hc hp hd hop2
  have hexec : exec (.store op1 op2 op3) s = .next _ := execStore_completes h1 (by omega)
  obtain ⟨hv, -, -, ha⟩ := cellWritten_advance s op2.toNat s.x[op1.toNat]
  have hstep := (step_of_decode_ok hc (by omega) hd).trans hexec
  generalize advance (s.setMem (s.mem.write op2.toNat s.x[op1.toNat])) = t at hv ha hstep
  have hin : t.pc < t.cfg.memSize := by rwa [ha.pc_eq, ha.cfg_eq]
  have hread : t.mem.read t.pc = s.x[op1.toNat] := by rw [ha.pc_eq, ← hop2, hv]
  refine ⟨t, hstep, ?_, ?_⟩
  · rw [fetch_of_lt hin, hread]
  · rw [step_of_canStep (ha.canStep hp) hin, hread]

end Sys2Proof.Machine
end

section
/-!
PROOFS. Wrapped arithmetic and short instruction sequences (41_arithmetic.md, 42_load_store.md, 70_reset_and_hazards.md):
reduction modulo 2^16, ADD and SUB undoing each other, repeated doubling, and from these the obligations O17, O18, O19,
O16 and O41.
-/

namespace Sys2Proof.Machine

/-! ### Wrapped results (rule R112) -/

/-- Wrapping keeps a value that fits in 16 signed bits. -/
theorem signed_wrap_of_fits {v : Int} (hlo : -32768 ≤ v) (hhi : v ≤ 32767) : signed (wrap v) = v := by
  rw [signed, wrap, BitVec.toInt_ofInt, Int.bmod_eq_of_le (by omega) (by omega)]

theorem unsigned_wrappedSum (a b : Word) : unsigned (wrappedSum a b) = (unsigned a + unsigned b) % 2 ^ 16 := by
  rw [wrappedSum_eq_add]
  exact BitVec.toNat_add a b

theorem unsigned_wrappedDifference (a b : Word) :
    (unsigned (wrappedDifference a b) : Int) = ((unsigned a : Int) - unsigned b) % 2 ^ 16 := by
  have hb := b.isLt
  rw [wrappedDifference_eq_sub, unsigned, unsigned, unsigned, BitVec.toNat_sub]
  omega

/-- Settles O17: the wrapped results are addition and subtraction of bit vectors, and wrapping keeps what fits. -/
theorem wrappedArithmeticIsModular : Obligations.WrappedArithmeticIsModular := fun a b =>
  ⟨unsigned_wrappedSum a b, unsigned_wrappedDifference a b, signed_wrap_of_fits, signed_wrap_of_fits⟩

theorem wrappedSum_comm (a b : Word) : wrappedSum a b = wrappedSum b a := by
  rw [wrappedSum, wrappedSum, add_comm]

theorem wrappedDifference_wrappedSum (a b : Word) : wrappedDifference (wrappedSum a b) b = a := by
  rw [wrappedDifference_eq_sub, wrappedSum_eq_add, BitVec.add_sub_cancel]

theorem wrappedDifference_self (a : Word) : wrappedDifference a a = 0 := by
  rw [wrappedDifference_eq_sub]
  exact BitVec.sub_self a

/-- Doubling sixteen times multiplies by 2^16, which is 0 in a word. -/
theorem double_iterate_sixteen (v : Word) : (fun z => wrappedSum z z)^[16] v = 0 := by
  have hdouble : (fun z : Word => wrappedSum z z) = (2 * ·) := by
    funext z
    rw [wrappedSum_eq_add, two_mul]
  calc (fun z => wrappedSum z z)^[16] v = 2 ^ 16 * v := by rw [hdouble, mul_left_iterate]
    _ = 0 * v := congrArg (· * v) (by decide)
    _ = 0 := zero_mul v

/-! ### Instruction sequences -/

/-- Settles O18: SUB of the same register takes back what ADD added, for the other register was not written. -/
theorem arithmeticLaws : Obligations.ArithmeticLaws := by
  refine ⟨?restored, ?cleared, double_iterate_sixteen, wrappedSum_comm⟩
  case restored =>
    intro op1 op2 c d s h1 h2 hne
    have hne' : op1.toNat ≠ op2.toNat := fun h => hne (BitVec.eq_of_toNat_eq h)
    refine ⟨_, _, execAdd_completes h1 h2, execSub_completes h1 h2, ?_⟩
    simp [Vector.getElem_set_ne, hne', wrappedDifference_wrappedSum]
  case cleared =>
    intro op1 c s h1
    refine ⟨_, execSub_completes h1 h1, ?_⟩
    simp [wrappedDifference_self]

/-- Settles O19: the cell STORE wrote is the cell LOAD reads. -/
theorem storeThenLoadMovesValue : Obligations.StoreThenLoadMovesValue := by
  intro r q a c d s hr hq ha
  refine ⟨_, _, execStore_completes hr ha, execLoad_completes hq ?_, ?_⟩
  · simpa using ha
  · simp [Memory.read_write]

/-- Settles O16: the outcome of an instruction with its indices in range does not name `op3`, and that of EXIT names no
operand. -/
theorem unusedFieldsIgnored : Obligations.UnusedFieldsIgnored := by
  intro op1 op2 op3 op3' s
  refine ⟨fun h1 h2 => ⟨?add, ?sub⟩, fun h1 h2 => ⟨?load, ?store⟩, fun he a b c => ?exit⟩
  case add => exact (execAdd_completes h1 h2).trans (execAdd_completes h1 h2).symm
  case sub => exact (execSub_completes h1 h2).trans (execSub_completes h1 h2).symm
  case load => exact (execLoad_completes h1 h2).trans (execLoad_completes h1 h2).symm
  case store => exact (execStore_completes h1 h2).trans (execStore_completes h1 h2).symm
  case exit => exact (execExit_halts he).trans (execExit_halts he).symm

/-! ### Zero cells under decision D1 (70_reset_and_hazards.md section 3) -/

/-- The zero word is ADD of R0 to itself under the numbers of decision D1. -/
theorem decode_zero_d1 {c : Config} (hm : c.opcodes = OpcodeMap.d1) : decode c 0 = .ok (.add 0 0 0) := by
  have hword : encode c.opcodes (.add 0 0 0) = 0 := by
    rw [hm]
    decide
  have hdistinct : c.opcodes.Distinct := by
    rw [hm]
    decide
  rw [← hword]
  exact decode_encode hdistinct rfl

/-- A step on a zero cell doubles R0, writes nothing else and advances. -/
theorem step_zero_d1 {s : State} (hm : s.cfg.opcodes = OpcodeMap.d1) (hc : s.CanStep) (hp : s.pc < s.cfg.memSize)
    (hzero : s.mem.read s.pc = 0) :
    ∃ t, step s = .next t ∧ t.x = s.x.set 0 (wrappedSum s.x[0] s.x[0]) ∧ t.mem = s.mem ∧ Advanced s t := by
  have hd : decode s.cfg (s.mem.read s.pc) = .ok (.add 0 0 0) := by rw [hzero, decode_zero_d1 hm]
  have hexec := execAdd_completes (op1 := 0) (op2 := 0) (op3 := 0) (s := s) (by decide) (by decide)
  exact ⟨_, (step_of_decode_ok hc hp hd).trans hexec, advance_x _, advance_mem _, advanced_advance rfl rfl rfl rfl rfl⟩

/-- `n` zero cells in a row double R0 `n` times and change no other register and no cell. -/
theorem steps_zero_d1 (n : Nat) (s : State) (hm : s.cfg.opcodes = OpcodeMap.d1) (hc : 0 < n → s.CanStep)
    (hp : s.pc + n ≤ s.cfg.memSize) (hzero : ∀ k < n, s.mem.read (s.pc + k) = 0) :
    ∃ t, steps n s = .next t ∧ t.x = s.x.set 0 ((fun z => wrappedSum z z)^[n] s.x[0]) ∧ t.mem = s.mem ∧
      t.pc = s.pc + n := by
  induction n generalizing s with
  | zero => exact ⟨s, rfl, by simp, rfl, rfl⟩
  | succ n ih =>
    obtain ⟨u, hstep, hux, hum, ha⟩ := step_zero_d1 hm (hc n.succ_pos) (by omega) (hzero 0 n.succ_pos)
    have hucfg := ha.cfg_eq
    have hupc := ha.pc_eq
    have huzero : ∀ k < n, u.mem.read (u.pc + k) = 0 := by
      intro k hk
      rw [hum, hupc, Nat.add_assoc, Nat.add_comm 1 k]
      exact hzero (k + 1) (by omega)
    obtain ⟨t, ht, htx, htm, htpc⟩ :=
      ih u (by rwa [hucfg]) (fun hn => ha.canStep (by omega)) (by rw [hucfg]; omega) huzero
    refine ⟨t, (steps_succ_of_next hstep n).trans ht, ?_, htm.trans hum, by omega⟩
    simpa [hux] using htx

/-- Settles O41: the sixteen zero cells double R0 sixteen times. -/
theorem zeroCellsClearR0 : Obligations.ZeroCellsClearR0 := by
  intro s hm hc hp hzero
  obtain ⟨t, ht, hx, hmem, hpc⟩ := steps_zero_d1 16 s hm (fun _ => hc) hp hzero
  rw [double_iterate_sixteen] at hx
  refine ⟨t, ht, ?_, fun r hr hne => ?_, fun a => by rw [hmem], hpc⟩
  · simp [hx]
  · simp [hx, Vector.getElem_set_ne, hne.symm]

end Sys2Proof.Machine
end

section
/-!
PROOFS. Frames of whole runs, the canonical form of memory and the length of runs (10_state.md, 20_memory.md,
40_execution_cycle.md section 3): the obligations O31, O32, O33, O38 and O39.
-/

namespace Sys2Proof.Machine

/-! ### What no run changes -/

/-- An operand field addresses only cells 0 to 15 (rule R122), so an instruction writes no other. -/
theorem Executed.read_high {w : Word} {s t : State} (he : Executed w s t) {a : Nat} (ha : 16 ≤ a) :
    t.mem.read a = s.mem.read a := by
  cases he with
  | wroteRegister r h v => simp
  | wroteCell b hb hlow v => simp [Memory.read_write, show a ≠ b by omega]
  | exited h => simp
  | faulted f => simp

theorem step_read_high {s t : State} (h : step s = .next t) {a : Nat} (ha : 16 ≤ a) :
    t.mem.read a = s.mem.read a := by
  rcases step_cases h with ⟨-, rfl⟩ | ⟨-, -, he⟩
  · rfl
  · exact he.read_high ha

/-- Settles O31: each step keeps what the cell held at the start. -/
theorem highCellsNeverWritten : Obligations.HighCellsNeverWritten := by
  intro n s t h a ha
  exact steps_keep (P := fun u => u.mem.read a = s.mem.read a)
    (fun _ _ hu hstep => (step_read_high hstep ha).trans hu) n s t rfl h

/-- Settles O32: each step keeps the configuration, a load changes memory alone, and reset keeps it by definition. -/
theorem configurationIsFixed : Obligations.ConfigurationIsFixed := by
  refine ⟨fun n s t h => ?_, fun p s => ?_, fun s => rfl⟩
  · exact steps_keep (P := fun u => u.cfg = s.cfg) (fun _ _ hu hstep => (step_keeps_cfg hstep).trans hu) n s t rfl h
  · rw [loadProgram_eq_setMem, State.setMem_cfg]

/-! ### The canonical form of memory (log entry 3) -/

/-- A cell below the first one listed holds the reset content. -/
theorem Memory.read_of_lt_all {m : Memory} {a : Nat} (h : ∀ c ∈ m, a < c.1) : m.read a = unlistedCell := by
  induction m with
  | nil => rfl
  | cons c m ih =>
    obtain ⟨b, v⟩ := c
    have hb : a < b := h (b, v) List.mem_cons_self
    rw [Memory.read_cons, if_neg (Nat.ne_of_lt hb), ih fun c hc => h c (List.mem_cons_of_mem _ hc)]

/-- The canonical form of a nonempty list: the head is listed with reason and lies below the tail, which is canonical. -/
theorem Memory.wf_cons {b : Nat} {v : Word} {m : Memory} (h : Memory.Wf ((b, v) :: m)) :
    v ≠ unlistedCell ∧ (∀ c ∈ m, b < c.1) ∧ m.Wf := by
  obtain ⟨hrising, hlisted⟩ := h
  obtain ⟨hbelow, htail⟩ := List.pairwise_cons.1 hrising
  exact ⟨hlisted (b, v) List.mem_cons_self, hbelow, htail, fun c hc => hlisted c (List.mem_cons_of_mem _ hc)⟩

/-- Of two canonical memories whose cells agree, neither starts below the other. -/
theorem Memory.head_le_of_read_eq {b b' : Nat} {v v' : Word} {m m' : Memory} (h : Memory.Wf ((b, v) :: m))
    (h' : Memory.Wf ((b', v') :: m')) (hread : ∀ a, Memory.read ((b, v) :: m) a = Memory.read ((b', v') :: m') a) :
    b' ≤ b := by
  by_contra hlt
  have hlow : ∀ c ∈ (b', v') :: m', b < c.1 := by
    intro c hc
    rcases List.mem_cons.1 hc with rfl | hc
    · exact Nat.not_le.1 hlt
    · exact Nat.lt_trans (Nat.not_le.1 hlt) ((Memory.wf_cons h').2.1 c hc)
  have hv := hread b
  rw [Memory.read_of_lt_all hlow, Memory.read_cons, if_pos rfl] at hv
  exact (Memory.wf_cons h).1 hv

/-- The reset content everywhere is the empty list alone. -/
theorem Memory.eq_nil_of_read {m : Memory} (h : m.Wf) (hread : ∀ a, m.read a = unlistedCell) : m = [] := by
  cases m with
  | nil => rfl
  | cons c m =>
    obtain ⟨b, v⟩ := c
    have hv := hread b
    rw [Memory.read_cons, if_pos rfl] at hv
    exact absurd hv (Memory.wf_cons h).1

/-- Settles O33, by induction on the list: the two heads have one address and one content, and the tails agree there
because both hold the reset content. -/
theorem canonicalMemoryIsUnique : Obligations.CanonicalMemoryIsUnique := by
  intro m m' h h' hread
  induction m generalizing m' with
  | nil => exact (Memory.eq_nil_of_read h' fun a => (hread a).symm).symm
  | cons c m ih =>
    cases m' with
    | nil => exact Memory.eq_nil_of_read h hread
    | cons c' m' =>
      obtain ⟨b, v⟩ := c
      obtain ⟨b', v'⟩ := c'
      obtain rfl : b = b' :=
        Nat.le_antisymm (Memory.head_le_of_read_eq h' h fun a => (hread a).symm) (Memory.head_le_of_read_eq h h' hread)
      obtain ⟨-, hbelow, htail⟩ := Memory.wf_cons h
      obtain ⟨-, hbelow', htail'⟩ := Memory.wf_cons h'
      have hv : v = v' := by simpa [Memory.read_cons] using hread b
      have htails : ∀ a, Memory.read m a = Memory.read m' a := by
        intro a
        by_cases ha : a = b
        · rw [ha, Memory.read_of_lt_all hbelow, Memory.read_of_lt_all hbelow']
        · simpa [Memory.read_cons, ha] using hread a
      rw [hv, ih m' htail htail' htails]

/-! ### The length of a run (10_state.md section 7, 40_execution_cycle.md section 3) -/

theorem steps_keep_inv {n : Nat} {s t : State} (hi : s.Inv) (h : steps n s = .next t) : t.Inv :=
  steps_keep (P := State.Inv) stepKeepsInvariant n s t hi h

/-- In a terminal state of the invariant a stop reason is set. -/
theorem reason_ne_none_of_terminal {s : State} (hi : s.Inv) (ht : s.Terminal) : s.reason ≠ .none := by
  obtain ⟨-, -, -, -, hhalted, hfaulted⟩ := hi
  rcases ht with h | h
  · rcases (hhalted h).1 with ⟨hreason, -⟩ | ⟨hreason, -⟩ <;> simp [hreason]
  · rcases (hfaulted h).1 with hreason | hreason <;> simp [hreason]

/-- The first `m` requests from `s` each found the engine able to step, and so does the one after them. -/
def StepsThrough (m : Nat) (s : State) : Prop := ∀ k < m + 1, ∃ u, steps k s = .next u ∧ u.CanStep

theorem stepsThrough_zero {s : State} (hc : s.CanStep) : StepsThrough 0 s := fun k hk =>
  ⟨s, by rw [Nat.lt_one_iff.1 hk, steps_zero], hc⟩

theorem StepsThrough.succ {m : Nat} {s u : State} (hc : s.CanStep) (hu : step s = .next u) (h : StepsThrough m u) :
    StepsThrough (m + 1) s := by
  intro k hk
  cases k with
  | zero => exact ⟨s, rfl, hc⟩
  | succ k =>
    rw [steps_succ_of_next hu]
    exact h k (by omega)

theorem steps_succ_of_steps {m : Nat} {s u t : State} (hu : steps m s = .next u) (ht : step u = .next t) :
    steps (m + 1) s = .next t := by
  rw [steps_add, hu]
  exact steps_succ_of_next ht 0

theorem exists_step_of_steps_succ {n : Nat} {s t : State} (h : steps (n + 1) s = .next t) :
    ∃ u, step s = .next u ∧ steps n u = .next t := by
  rw [steps] at h
  split at h
  · next u hu => exact ⟨u, hu, h⟩
  · cases h
  · cases h

theorem pc_succ_of_step_canStep {s t : State} (hc : s.CanStep) (h : step s = .next t) (htc : t.CanStep) :
    t.pc = s.pc + 1 := by
  rcases (pcAdvancesByOneOrStays s t h).1 hc with ⟨hpc, -⟩ | ⟨-, hterm, -⟩
  · exact hpc
  · exact absurd htc ((terminal_iff_not_canStep t).1 hterm)

/-- A step that stops the engine reaches MEM_SIZE with reason EndOfMemory, or keeps `pc` and has another reason. -/
theorem pc_of_stopping_step {s t : State} (hc : s.CanStep) (h : step s = .next t) (hterm : t.Terminal) :
    (t.pc = s.pc + 1 ∧ t.pc = s.cfg.memSize ∧ t.reason = .endOfMemory) ∨ (t.pc = s.pc ∧ t.reason ≠ .endOfMemory) := by
  rcases (pcAdvancesByOneOrStays s t h).1 hc with ⟨hpc, hrunning | hend⟩ | ⟨hpc, -, hreason⟩
  · exact absurd (.inr hrunning) ((terminal_iff_not_canStep t).1 hterm)
  · exact .inl ⟨hpc, (endOfMemoryExactlyPastLastCell s t hc h).1.1 hend, hend.2⟩
  · exact .inr ⟨hpc, hreason⟩

/-- Where step requests lead from a state that can step: on through memory, one cell each, or to the answer of the
stopping step, the last of `m + 1` executed ones. -/
theorem steps_run_or_stop (n : Nat) (s t : State) (hc : s.CanStep) (h : steps n s = .next t) :
    (t.CanStep ∧ t.pc = s.pc + n) ∨
    ∃ m u, m < n ∧ steps m s = .next u ∧ u.CanStep ∧ u.pc = s.pc + m ∧ step u = .next t ∧ t.Terminal ∧
      StepsThrough m s := by
  induction n generalizing s with
  | zero =>
    cases h
    exact .inl ⟨hc, rfl⟩
  | succ n ih =>
    obtain ⟨v, hv, h⟩ := exists_step_of_steps_succ h
    by_cases hvc : v.CanStep
    · have hpc := pc_succ_of_step_canStep hc hv hvc
      rcases ih v hvc h with ⟨htc, htpc⟩ | ⟨m, u, hm, hu, huc, hupc, hstep, hterm, hthrough⟩
      · exact .inl ⟨htc, by omega⟩
      · exact .inr ⟨m + 1, u, by omega, (steps_succ_of_next hv m).trans hu, huc, by omega, hstep, hterm,
          hthrough.succ hc hv⟩
    · rw [steps_of_not_canStep hvc] at h
      cases h
      exact .inr ⟨0, s, n.succ_pos, rfl, hc, rfl, hv, (terminal_iff_not_canStep _).2 hvc, stepsThrough_zero hc⟩

/-- Settles O38: a run that did not stop advanced once per request; one that stopped did so in the step after `m`
advances, and that step advanced exactly at the end of memory. -/
theorem stepCountFromPcAndReason : Obligations.StepCountFromPcAndReason := by
  intro s t n hi hready h
  have hc : s.CanStep := .inl hready
  have hpc : s.pc = 0 := (hi.readyOk hready).1
  have hti := steps_keep_inv hi h
  rcases steps_run_or_stop n s t hc h with ⟨htc, htpc⟩ | ⟨m, u, hm, hu, huc, hupc, hstep, hterm, hthrough⟩
  · have hreason := (inv_of_canStep hti htc).2
    exact ⟨fun _ => by omega, fun hend => by simp [hreason] at hend, fun hstop => absurd hreason hstop⟩
  · have hstops := steps_succ_of_steps hu hstep
    refine ⟨fun hnone => absurd hnone (reason_ne_none_of_terminal hti hterm), fun hend => ?endOfMemory,
      fun _ hother => ?stopped⟩
    case endOfMemory =>
      obtain ⟨htpc, hlast, -⟩ := (pc_of_stopping_step huc hstep hterm).resolve_right fun hstay => hstay.2 hend
      have hcount : t.pc = m + 1 := by omega
      rw [configurationIsFixed.1 m s u hu] at hlast
      refine ⟨hlast, ?_⟩
      rw [hcount]
      exact ⟨hm, hstops, hthrough⟩
    case stopped =>
      obtain ⟨htpc, -⟩ := (pc_of_stopping_step huc hstep hterm).resolve_left fun hend => hother hend.2.2
      have hcount : t.pc = m := by omega
      rw [hcount]
      exact ⟨hm, hstops, hthrough⟩

/-- Settles O39: `MEM_SIZE` requests end in a terminal state, and every step on the way keeps the invariant. -/
theorem everyRunTerminates : Obligations.EveryRunTerminates := by
  intro s hi
  obtain ⟨t, ht, hsteps⟩ := steps_memSize_reach_terminal hi
  have hrun : run s = .next t := hsteps _ le_rfl
  exact ⟨t, hrun, ht, steps_keep_inv hi hrun, runResult_of_run hrun⟩

end Sys2Proof.Machine
end

section
/-!
PROOFS. The host interface (44_host_interface.md, 70_reset_and_hazards.md section 1): a program is encoded tuple by tuple,
an accepted load fills the cells from 0, and from these the obligations O43, O44, O45, O42 and O46.
-/

namespace Sys2Proof.Machine

/-! ### Encoding a program (rules R140, R142) -/

/-- `ws` are the words of the tuples `p`, one by one. -/
def EncodedAs (p : List InstrTuple) (ws : List Word) : Prop := List.Forall₂ (fun t w => encodeTuple t = .ok w) p ws

theorem EncodedAs.length_eq {p : List InstrTuple} {ws : List Word} (h : EncodedAs p ws) : p.length = ws.length :=
  List.Forall₂.length_eq h

theorem EncodedAs.encodeTuple_getElem {p : List InstrTuple} {ws : List Word} (h : EncodedAs p ws) {k : Nat}
    (hk : k < p.length) : encodeTuple p[k] = .ok (ws[k]'(h.length_eq ▸ hk)) :=
  List.Forall₂.get h hk (h.length_eq ▸ hk)

/-- A program is encoded exactly if each of its tuples is. -/
theorem encodeProgram_ok_iff (p : List InstrTuple) (ws : List Word) :
    encodeProgram p = .ok ws ↔ EncodedAs p ws := by
  unfold EncodedAs
  induction p generalizing ws with
  | nil => rw [List.forall₂_nil_left_iff, encodeProgram, Except.ok.injEq, eq_comm]
  | cons t p ih =>
    rw [List.forall₂_cons_left_iff, encodeProgram]
    simp only [← ih]
    cases encodeTuple t with
    | error e => simp
    | ok w =>
      cases encodeProgram p with
      | error e => simp
      | ok us => simp [eq_comm]

theorem exists_encodedAs_of_wellFormed {p : List InstrTuple} (h : ∀ t ∈ p, t.wellFormed = true) :
    ∃ ws, EncodedAs p ws := by
  induction p with
  | nil => exact ⟨[], .nil⟩
  | cons t p ih =>
    obtain ⟨ws, hws⟩ := ih fun u hu => h u (List.mem_cons_of_mem _ hu)
    exact ⟨_ :: ws, .cons (encodeTuple_of_wellFormed (h t List.mem_cons_self)) hws⟩

/-- One bad tuple, and the program is not encoded. -/
theorem encodeProgram_of_not_wellFormed {p : List InstrTuple} {t : InstrTuple} (ht : t ∈ p)
    (hbad : t.wellFormed = false) : encodeProgram p = .error .invalidOperand := by
  cases h : encodeProgram p with
  | error e =>
    cases e
    rfl
  | ok ws =>
    obtain ⟨k, hk, rfl⟩ := List.getElem_of_mem ht
    have hwf := wellFormed_of_encodeTuple (((encodeProgram_ok_iff p ws).1 h).encodeTuple_getElem hk)
    rw [hbad] at hwf
    cases hwf

/-- The words of a sequence of constants are the constants (rule R82). -/
theorem encodedAs_map_decodeFields (ks : List Word) : EncodedAs (ks.map fun k => (decodeFields k).tuple) ks :=
  List.forall₂_map_left_iff.2 (List.forall₂_same.2 fun k _ => encodeTuple_decodeFields k)

/-! ### Loading (rules R140 to R143) -/

section
variable {p : List InstrTuple} {s : State} (hs : s.state = .ready) (hp : p.length ≤ s.cfg.memSize)
include hs hp

/-- A program that fits and is encoded is written from address 0. -/
theorem loadProgram_of_encodedAs {ws : List Word} (h : EncodedAs p ws) :
    loadProgram p s = (s.setMem (s.mem.writeFrom 0 ws), none) := by
  rw [loadProgram, if_neg (not_not.2 hs), if_neg (Nat.not_lt.2 hp), (encodeProgram_ok_iff p ws).2 h]

/-- A program that fits and is not encoded is refused. -/
theorem loadProgram_of_encodeProgram_error {e : EncodeError} (h : encodeProgram p = .error e) :
    loadProgram p s = (s, some .invalidOperand) := by
  rw [loadProgram, if_neg (not_not.2 hs), if_neg (Nat.not_lt.2 hp), h]

end

theorem Memory.read_writeFrom_zero_of_lt (m : Memory) {ws : List Word} {k : Nat} (hk : k < ws.length) :
    (m.writeFrom 0 ws).read k = ws[k] := by
  simp [Memory.read_writeFrom, hk]

theorem Memory.read_writeFrom_zero_of_ge (m : Memory) {ws : List Word} {a : Nat} (ha : ws.length ≤ a) :
    (m.writeFrom 0 ws).read a = m.read a := by
  simp [Memory.read_writeFrom, ha]

/-- Settles O43: cell `k` holds word `k` of the encoded program, and the load changed memory alone. -/
theorem loadWritesProgram : Obligations.LoadWritesProgram := by
  intro p s hs hp hwf
  obtain ⟨ws, hws⟩ := exists_encodedAs_of_wellFormed hwf
  refine ⟨_, loadProgram_of_encodedAs hs hp hws, fun k hk => ?program, fun a ha => ?behind, rfl, rfl, rfl, rfl, rfl, rfl,
    rfl⟩
  case program =>
    rw [hws.encodeTuple_getElem hk, State.setMem_mem, Memory.read_writeFrom_zero_of_lt]
  case behind =>
    rw [hws.length_eq] at ha
    rw [State.setMem_mem, Memory.read_writeFrom_zero_of_ge _ ha]

/-- Settles O44: the three checks in their order, each before memory is written. -/
theorem refusedLoadChangesNothing : Obligations.RefusedLoadChangesNothing := by
  intro p s
  refine ⟨fun hs => ?notReady, fun hs hlong => ?tooLarge, fun hs hp ⟨t, ht, hbad⟩ => ?badTuple⟩
  case notReady => rw [loadProgram, if_pos hs]
  case tooLarge => rw [loadProgram, if_neg (not_not.2 hs), if_pos hlong]
  case badTuple => exact loadProgram_of_encodeProgram_error hs hp (encodeProgram_of_not_wellFormed ht hbad)

/-- Settles O45: the tuple of a word's fields is encoded as the word. -/
theorem dataWordsAreLoadable : Obligations.DataWordsAreLoadable := by
  intro ks s hs hfits
  have hload := loadProgram_of_encodedAs hs (by rwa [List.length_map]) (encodedAs_map_decodeFields ks)
  exact ⟨_, hload, fun k hk => Memory.read_writeFrom_zero_of_lt s.mem hk⟩

/-! ### Reset and the snapshot (rules R144, R190) -/

/-- Settles O42: the state after reset does not depend on the state before, and its memory lists no cell. -/
theorem resetClearsEverything : Obligations.ResetClearsEverything := fun _ =>
  ⟨rfl, rfl, rfl, rfl, rfl, fun _ hr => Vector.getElem_replicate hr, Memory.read_nil⟩

/-- Settles O46: registers and cells are listed in order, the status is copied. -/
theorem snapshotShowsState : Obligations.SnapshotShowsState := by
  intro s
  refine ⟨?_, fun r hr => ?_, ?_, fun a ha => ?_, rfl, rfl, rfl, rfl, rfl⟩
  · simp [snapshot]
  · simp [snapshot, hr]
  · simp [snapshot]
  · simp [snapshot, ha]

end Sys2Proof.Machine
end
